-- ==== Sys2Proof/Word.lean ====
section
/-! DEFINITION. The word types of PADFMT: bytes (spec/00_scope.md R9) and the
16-bit command and response words (spec/30_encoding.md R70, R71). -/

namespace Sys2Proof

/-- A byte, an unsigned integer of 8 bits (00_scope R9). -/
abbrev Byte := BitVec 8

/-- A command word or a response word: one 16-bit quantity with no byte order
(20_memory R56). -/
abbrev Word := BitVec 16

end Sys2Proof
end

