-- ==== Sys2Proof/Syntax.lean ====
section
/-! DEFINITION. The command set of PADFMT (spec/30_encoding.md R74), one constructor
for each of the thirteen rows of spec/opcode_table.json. -/

namespace Sys2Proof

/-- A command. The one operand is `ARG`, used as it stands (30_encoding R72, R73). -/
inductive Instr where
  /-- `NOP` (40_input_stream R90). -/
  | nop
  /-- `CLR` (40_input_stream R91). -/
  | clr
  /-- `PUSH b` (40_input_stream R92). -/
  | push (b : Byte)
  /-- `PAD16` (41_padder R107). -/
  | pad16
  /-- `PAD32` (41_padder R108). -/
  | pad32
  /-- `LDV` (42_formatter R122). -/
  | ldv
  /-- `FMT` (42_formatter R127). -/
  | fmt
  /-- `RDO i` (43_readout R140). -/
  | rdo (i : Byte)
  /-- `RDV i` (43_readout R141). -/
  | rdv (i : Byte)
  /-- `RDT i` (43_readout R142). -/
  | rdt (i : Byte)
  /-- `RDS` (43_readout R143). -/
  | rds
  /-- `RDIL` (43_readout R144). -/
  | rdil
  /-- `RDOL` (43_readout R145). -/
  | rdol
  deriving DecidableEq, Repr

end Sys2Proof
end

