-- ==== Sys2Proof/WellFormed.lean ====
section
/-! DEFINITION. Which command words are well-formed (spec/30_encoding.md R76). The
operand of a command is a byte and every byte is a legal operand of the four commands
that take one (R73), so the type `Instr` has no ill-formed term: what can be ill-formed
is a WORD, and the checks below are on words, one per row of R76's table. -/

namespace Sys2Proof

/-- The rows of R76's table, by name: why a word is illegal. -/
inductive IllegalWord where
  /-- `NOP` with non-zero `ARG`. -/
  | nopArg
  /-- `CLR` with non-zero `ARG`. -/
  | clrArg
  /-- `PAD` with a target length other than 16 or 32 (R75). -/
  | padLength
  /-- `LDV` with non-zero `ARG`. -/
  | ldvArg
  /-- `FMT` with non-zero `ARG`. -/
  | fmtArg
  /-- `RDC` with a register number above 2 (R77). -/
  | ctrlReg
  /-- `OP` 0x06, 0x07 or 0x0C..0xFF: unassigned. -/
  | opUnassigned
  deriving DecidableEq, Repr

/-- `lo <= w <= hi`, on the word as an unsigned integer. -/
def wordIn (lo hi : Nat) (w : Word) : Bool :=
  decide (lo ≤ w.toNat) && decide (w.toNat ≤ hi)

/-- The row of R76's table a word stands in, range by range as the table gives them;
`none` for a word in no row, which is a well-formed command word. -/
def illegalRow (w : Word) : Option IllegalWord :=
  if wordIn 0x0001 0x00FF w then some .nopArg
  else if wordIn 0x0101 0x01FF w then some .clrArg
  else if wordIn 0x0300 0x030F w || wordIn 0x0311 0x031F w || wordIn 0x0321 0x03FF w then
    some .padLength
  else if wordIn 0x0401 0x04FF w then some .ldvArg
  else if wordIn 0x0501 0x05FF w then some .fmtArg
  else if wordIn 0x0600 0x07FF w then some .opUnassigned
  else if wordIn 0x0B03 0x0BFF w then some .ctrlReg
  else if wordIn 0x0C00 0xFFFF w then some .opUnassigned
  else none

/-- A well-formed command word: one that stands in no row of R76's table. -/
def wordLegal (w : Word) : Bool :=
  (illegalRow w).isNone

end Sys2Proof
end

