-- ==== Sys2Proof/Decode.lean ====
section
/-! DEFINITION. The decoder, the opcode map of spec/30_encoding.md R74 row by row, and
after it the encoder, from the same map's `OP` and `ARG` columns. -/

namespace Sys2Proof

/-- `OP`, bits 15:8 of a command word (R70). -/
def opField (w : Word) : Byte := w.extractLsb' 8 8

/-- `ARG`, bits 7:0 of a command word (R70). -/
def argField (w : Word) : Byte := w.extractLsb' 0 8

/-- One row of the opcode map: the words it selects and the command they are. -/
structure OpRow where
  pattern : Word
  mask : Word
  build : Byte → Instr

/-- `w & mask == match` (R74). -/
def OpRow.selects (r : OpRow) (w : Word) : Bool :=
  w &&& r.mask == r.pattern

/-- The opcode map (R74), in the table's order. -/
def opcodeMap : List OpRow :=
  [ ⟨0x0000, 0xFFFF, fun _ => .nop⟩,
    ⟨0x0100, 0xFFFF, fun _ => .clr⟩,
    ⟨0x0200, 0xFF00, fun b => .push b⟩,
    ⟨0x0310, 0xFFFF, fun _ => .pad16⟩,
    ⟨0x0320, 0xFFFF, fun _ => .pad32⟩,
    ⟨0x0400, 0xFFFF, fun _ => .ldv⟩,
    ⟨0x0500, 0xFFFF, fun _ => .fmt⟩ ] ++
  [ ⟨0x0800, 0xFF00, fun i => .rdo i⟩,
    ⟨0x0900, 0xFF00, fun i => .rdv i⟩,
    ⟨0x0A00, 0xFF00, fun i => .rdt i⟩,
    ⟨0x0B00, 0xFFFF, fun _ => .rds⟩,
    ⟨0x0B01, 0xFFFF, fun _ => .rdil⟩,
    ⟨0x0B02, 0xFFFF, fun _ => .rdol⟩ ]

/-- The name of the reason a word that selects no row is rejected under: the row of
R76's table it stands in. -/
def rejectName (w : Word) : IllegalWord :=
  match (opField w).toNat with
  | 0x00 => .nopArg
  | 0x01 => .clrArg
  | 0x03 => .padLength
  | 0x04 => .ldvArg
  | 0x05 => .fmtArg
  | 0x0B => .ctrlReg
  | _ => .opUnassigned

/-- The command of the first row a word selects, or the name under which a word that
selects none is rejected. -/
def decodeFrom : List OpRow → Word → Except IllegalWord Instr
  | [], w => .error (rejectName w)
  | r :: rows, w => if r.selects w then .ok (r.build (argField w)) else decodeFrom rows w

/-- The decoder (R78), total on the 65536 words. -/
def decode (w : Word) : Except IllegalWord Instr := decodeFrom opcodeMap w

/-- The `OP` column of R74. -/
def opOf : Instr → Byte
  | .nop => 0x00
  | .clr => 0x01
  | .push _ => 0x02
  | .pad16 => 0x03
  | .pad32 => 0x03
  | .ldv => 0x04
  | .fmt => 0x05
  | .rdo _ => 0x08
  | .rdv _ => 0x09
  | .rdt _ => 0x0A
  | .rds => 0x0B
  | .rdil => 0x0B
  | .rdol => 0x0B

/-- The `ARG` column of R74. -/
def argOf : Instr → Byte
  | .nop => 0x00
  | .clr => 0x00
  | .push b => b
  | .pad16 => 0x10
  | .pad32 => 0x20
  | .ldv => 0x00
  | .fmt => 0x00
  | .rdo i => i
  | .rdv i => i
  | .rdt i => i
  | .rds => 0x00
  | .rdil => 0x01
  | .rdol => 0x02

/-- The encoder: `cmd = {OP, ARG}` (R70). Every command is one word (R79). -/
def encode (i : Instr) : Word := opOf i ++ argOf i

/-- What the decoder reads from a word numbered as spec/opcode_table.json numbers it.
A command is one 16-bit word (R79); bits above `nbits` are 0. -/
def decodeTableWord (nbits w : Nat) : Option Instr :=
  match decode (BitVec.ofNat 16 (w % 2 ^ nbits)) with
  | .ok i => some i
  | .error _ => none

end Sys2Proof
end

