-- ==== Sys2Proof/Config.lean ====
section
/-! DEFINITION. The parameters of PADFMT (spec/00_scope.md R5, R6, R7) and the free
values of what the spec leaves open (spec/93_implementation_defined.md U3, U9). -/

namespace Sys2Proof

/-- The two values of the parameter `WORD_ORDER` (00_scope R6). -/
inductive WordOrder where
  | le
  | be
  deriving DecidableEq, Repr

namespace Config

/-- `KEY_LEN` (R5): target length of the key padding. -/
abbrev keyLen : Nat := 32

/-- `BLOCK_LEN` (R5): target length of the label padding, length of a cipher block. -/
abbrev blockLen : Nat := 16

/-- `MARK_START` (R5): the start-of-padding marker. -/
abbrev markStart : Byte := 0x80

/-- `MARK_END` (R5): the rate/end marker. -/
abbrev markEnd : Byte := 0x01

/-- `FILL` (R5). -/
abbrev fill : Byte := 0x00

/-- `IBUF_CAP` (R7): bytes the input buffer stores. -/
abbrev ibufCap : Nat := 32

/-- `ILEN_SAT` (R7): the value at which the input length counter saturates. -/
abbrev ilenSat : Nat := 33

/-- `TEXT_LEN` (R7): characters of the formatted text. -/
abbrev textLen : Nat := 18

/-- `WORD_ORDER` of this hardware (R6): little-endian, pinned; 90_conflicts C1
(DEDUCED: assumption log 8). -/
def wordOrder : WordOrder := .le

/-- FREE VALUE: the unspecified contents of `VALUE` after the n-th reset event
(70_reset R190, 93 U3). It has no body, so no proof can see it. DESIGN CHOICE:
assumption log 3. -/
opaque unspecifiedValue : Nat → BitVec 64

/-- FREE VALUE: how many cycles beyond the first a command takes (00_scope R7 `LAT`, 93
U9): of the clock edge that accepts it and of every command word accepted so far, its own
first, so that no word, datum, position or history fixes it (70_reset R201). It has no
body. DESIGN CHOICE: assumption log 6. -/
opaque extraCycles (edge : Nat) (sent : List Word) : Nat

/-- `LAT` of that command: any number of cycles, at least 1 (R7). -/
def latency (edge : Nat) (sent : List Word) : Nat := extraCycles edge sent + 1

end Config

end Sys2Proof
end

