-- ==== Sys2Proof/Machine/State.lean ====
section
/-! DEFINITION. The state of PADFMT as plain data (spec/10_state.md R36), the causes of
its faults (spec/60_exceptions.md R170), and the state after reset
(spec/70_reset_and_hazards.md R190). -/

namespace Sys2Proof.Machine

/-- The three byte buffers a command reaches by index (20_memory R50). The other two
address spaces of R50, the bytes of `VALUE` and the control registers, are views of
registers and store nothing. -/
inductive Space where
  | ibuf
  | obuf
  | text
  deriving DecidableEq, Repr

/-- The contents of one byte buffer: its DEFINED cells as (address, byte), addresses
strictly rising. A cell that is not listed is undefined and holds no value (10_state
R36, 93 U1, U2, U4; assumption log 2). -/
abbrev Memory := List Host.Cell

/-- The canonical form of a buffer's contents: addresses strictly rising. An unlisted
cell reads as no value, which no listed byte equals. -/
abbrev Memory.wf (m : Memory) : Prop := (m.map Prod.fst).Pairwise (· < ·)

/-- The five fault causes (60_exceptions R170). -/
inductive Cause where
  | inputTooLong
  | illegalCommand
  | badBlockLength
  | notReady
  | indexRange
  deriving DecidableEq, Repr

/-- What the host can do to the engine between two commands (10_state R37, 70_reset
R191): present a command word, or reset it. -/
inductive HostEvent where
  | command (w : Word)
  | reset
  deriving DecidableEq, Repr

/-- Why a step stops. PADFMT's own faults (R170) are NOT here: the spec describes their
entry, so they are next states. Both constructors below are raised only in states that
no run from reset reaches (`State.Inv` of Safety.lean rules them out). -/
inductive Fault where
  /-- Raised by the operation `readCell` for an index outside the buffer (20_memory R50:
  the five spaces are the whole map). Safe: the machine stops. -/
  | noSuchCell (space : Space) (index : Nat)
  /-- Raised by the operation `readCell` for a cell of the buffer that holds no defined
  value (10_state R36: no rule reads one). Safe: the machine stops. -/
  | undefinedCell (space : Space) (index : Nat)
  deriving DecidableEq, Repr

/-- Why an instruction, or a move of the host, has no meaning. -/
inductive Refusal where
  /-- An arm of `exec` without a meaning would raise it; every arm has one, so nobody
  raises it. Safe: the machine stops. -/
  | notModelled (mnemonic : String)
  /-- Raised by `clockEdge` of Ports.lean, never by `exec` or `step`: the host changes
  `cmd_data` while `cmd_valid` is 1 and the word not yet accepted (93 U14 asks for a
  refusal; assumption log 7). Safe: the machine stops. -/
  | unsteadyCommand
  deriving DecidableEq, Repr

/-- All state of PADFMT (10_state R36), then the host's side of the two ports and the
model's own bookkeeping (10_state R29, R37; 70_reset R194; assumption logs 3 and 4). -/
structure State where
  /-- `IBUF[0..31]` (R21). -/
  ibuf : Memory
  /-- `ILEN` (R22): bytes pushed since reset or `CLR`; 33 means "33 or more". -/
  ilen : BitVec 6
  /-- `OBUF[0..31]` (R23). -/
  obuf : Memory
  /-- `OLEN` (R24): 0, 16 or 32. -/
  olen : BitVec 6
  /-- `VALUE` (R25). -/
  value : BitVec 64
  /-- `VV` (R26): VALUE valid. -/
  vv : Bool
  /-- `TEXT[0..17]` (R27). -/
  text : Memory
  /-- `TV` (R28): TEXT valid. -/
  tv : Bool
  /-- `FCODE` (R30): the first fault's code since reset, 0 while the engine runs. -/
  fcode : BitVec 8
  /-- MODEL: what the host has yet to do, next first. -/
  pending : List HostEvent
  /-- MODEL: the response words of this run, oldest first (R194). -/
  responses : List Word
  /-- MODEL: the position in the host's list of command words (R29). -/
  pc : Nat
  /-- MODEL: how many reset events there have been since the launch. -/
  resets : Nat
  deriving DecidableEq, Repr

/-- The state after the n-th reset event (70_reset R190). `VALUE` is unspecified there
and takes a free value; no cell of a buffer is defined. -/
def State.resetAt (n : Nat) : State where
  ibuf := []
  ilen := 0
  obuf := []
  olen := 0
  value := Config.unspecifiedValue n
  vv := false
  text := []
  tv := false
  fcode := 0
  pending := []
  responses := []
  pc := 0
  resets := n

/-- The machine right after reset, the launch state of R194 with no command pending. -/
def State.reset : State := State.resetAt 0

end Sys2Proof.Machine
end

