-- ==== Sys2Proof/Machine/Ops.lean ====
section
/-! DEFINITION. The named operations every command is written over: the cells of a
buffer, the response, TAKING A FAULT (spec/60_exceptions.md R176), the freeze (R177)
and the only way back from both, the reset event (R179, spec/70_reset_and_hazards.md
R191). -/

namespace Sys2Proof.Machine

/-- What a command or a step ends in. -/
abbrev Result := Host.Outcome State Fault Refusal

/-! ## Cells of a buffer -/

/-- The defined value of a cell, if it has one. -/
def readMem : Memory → Nat → Option Byte
  | [], _ => none
  | (k, b) :: m, a => if k = a then some b else readMem m a

/-- Write one cell, keeping the addresses strictly rising. -/
def writeMem : Memory → Nat → Byte → Memory
  | [], a, b => [(a, b)]
  | (k, c) :: m, a, b =>
    if a < k then (a, b) :: (k, c) :: m
    else if a = k then (a, b) :: m
    else (k, c) :: writeMem m a b

/-- The cells `k, k+1, ..` holding the bytes of a sequence. -/
def memFrom : Nat → List Byte → Memory
  | _, [] => []
  | k, b :: bs => (k, b) :: memFrom (k + 1) bs

/-- A buffer whose cells `0, 1, ..` hold the bytes of a sequence and whose other cells
are undefined. -/
def memOf (bs : List Byte) : Memory := memFrom 0 bs

/-- How many cells a buffer has (20_memory R50). -/
def cellCount : Space → Nat
  | .ibuf => Config.ibufCap
  | .obuf => Config.keyLen
  | .text => Config.textLen

/-- The contents of a buffer. -/
def State.mem (s : State) : Space → Memory
  | .ibuf => s.ibuf
  | .obuf => s.obuf
  | .text => s.text

/-- `MemRead(space, i, 1)` (00_scope R11): the byte in a defined cell; a cell that does
not exist or is undefined stops the machine. DEDUCED: assumption log 2. -/
def readCell (sp : Space) (i : Nat) (s : State) : Except Fault Byte :=
  if i < cellCount sp then
    match readMem (s.mem sp) i with
    | some b => .ok b
    | none => .error (.undefinedCell sp i)
  else .error (.noSuchCell sp i)

/-- The bytes of cells `k .. k+n-1`, in order. -/
def readCells (sp : Space) (s : State) : Nat → Nat → Except Fault (List Byte)
  | _, 0 => .ok []
  | k, n + 1 =>
    match readCell sp k s with
    | .error f => .error f
    | .ok b =>
      match readCells sp s (k + 1) n with
      | .error f => .error f
      | .ok bs => .ok (b :: bs)

/-! ## Writes of the commands, by name -/

/-- `ILEN <- 0`; every `IBUF` cell becomes undefined (40_input_stream R91). -/
def State.clearInput (s : State) : State := { s with ibuf := [], ilen := 0 }

/-- `IBUF[ILEN] <- b`, `ILEN <- ILEN + 1` (R92). -/
def State.storeInput (b : Byte) (s : State) : State :=
  { s with ibuf := writeMem s.ibuf s.ilen.toNat b, ilen := s.ilen + 1 }

/-- `ILEN <- 33`, the byte not stored (R92). -/
def State.saturateInput (s : State) : State :=
  { s with ilen := BitVec.ofNat 6 Config.ilenSat }

/-- `OBUF[0..T-1] <- out`, `OLEN <- T`; the cells at or past `T` become undefined
(41_padder R107, R108). -/
def State.setOutput (out : List Byte) (t : Nat) (s : State) : State :=
  { s with obuf := memOf out, olen := BitVec.ofNat 6 t }

/-- `VALUE <- v`, `VV <- 1`, `TV <- 0`; `TEXT` becomes undefined (42_formatter R122). -/
def State.setValue (v : BitVec 64) (s : State) : State :=
  { s with value := v, vv := true, text := [], tv := false }

/-- `TEXT[0..17] <- t`, `TV <- 1` (42_formatter R127). -/
def State.setText (t : List Byte) (s : State) : State :=
  { s with text := memOf t, tv := true }

/-- `FCODE <- c`. -/
def State.setFcode (c : Byte) (s : State) : State := { s with fcode := c }

/-! ## The response -/

/-- A response word `{FC, DATA}` (30_encoding R71). -/
def responseWord (fc data : Byte) : Word := fc ++ data

/-- Deliver one response word to the host (10_state R37). -/
def State.answer (r : Word) (s : State) : State :=
  { s with responses := s.responses ++ [r] }

/-- `respond(d)` (00_scope R12): complete the command, answer `{0x00, d}`. -/
def respond (d : Byte) (s : State) : Result :=
  .next (s.answer (responseWord 0x00 d))

/-! ## Taking a fault, the freeze, and the return from both -/

/-- The fault codes (60_exceptions R170). -/
def codeOf : Cause → Byte
  | .inputTooLong => 0x01
  | .illegalCommand => 0x02
  | .badBlockLength => 0x03
  | .notReady => 0x04
  | .indexRange => 0x05

/-- `raise F` (00_scope R12, 60_exceptions R176): `FCODE <- code(F)`, no other state
changes, and the response is `{code(F), 0x00}`. Nothing is saved and control goes
nowhere: the engine is frozen. DEDUCED: a next state (assumption log 1). -/
def raise (c : Cause) (s : State) : Result :=
  .next ((s.setFcode (codeOf c)).answer (responseWord (codeOf c) 0x00))

/-- A refused command (60_exceptions R177): no state changes, and the response is
`{FCODE, 0x00}`. DEDUCED: a next state (assumption log 1). -/
def refuse (s : State) : Result :=
  .next (s.answer (responseWord s.fcode 0x00))

/-- The fault-freeze check that comes before everything a command does (00_scope R13,
60_exceptions R178 item 1). -/
def guarded (s : State) (body : State → Result) : Result :=
  if s.fcode = 0 then body s else refuse s

/-- A command word that selects no row of the opcode map (30_encoding R78): refused
while frozen, else `IllegalCommand`. -/
def illegalWord (s : State) : Result :=
  guarded s (raise .illegalCommand)

/-- The reset event (70_reset R190, R191), the only return from a fault (R179): all
state of the engine is the reset state and a new run starts (R194). What the host has
yet to do is the host's and stays. DESIGN CHOICE: assumption log 4. -/
def resetEvent (s : State) : State :=
  { State.resetAt (s.resets + 1) with pending := s.pending }

/-! ## The command port -/

/-- The host's next event is taken from the front of what it has yet to do. -/
def State.withPending (evs : List HostEvent) (s : State) : State :=
  { s with pending := evs }

/-- A command word is accepted: the position in the host's list advances by exactly 1,
whatever becomes of the command (10_state R29). -/
def State.accept (s : State) : State := { s with pc := s.pc + 1 }

end Sys2Proof.Machine
end

