-- ==== Sys2Proof/Machine/Operands.lean ====
section
/-! DEFINITION. The operand forms of PADFMT: `ARG` as an index with its two checks
(spec/43_readout.md R140 to R142), and the byte orders by which a value is assembled
from bytes (spec/42_formatter.md R121) and taken apart again (R124). -/

namespace Sys2Proof.Machine

/-- `word64(b, LE)` (R121): byte 0 is the least significant. -/
def word64LE : List Byte → BitVec 64
  | [] => 0
  | b :: bs => b.setWidth 64 ||| (word64LE bs <<< 8)

/-- `word64(b, order)` (R121), for a sequence of exactly 8 bytes. -/
def word64 (b : List Byte) : WordOrder → BitVec 64
  | .le => word64LE b
  | .be => word64LE b.reverse

/-- `be_byte(v, i)` for `i` in 0..7 (R124): `v[63-8i : 56-8i]`, byte 0 the most
significant. -/
def beByte (v : BitVec 64) (i : Nat) : Byte := v.extractLsb' (56 - 8 * i) 8

/-- `be_bytes(v)` (R124). -/
def beBytes (v : BitVec 64) : List Byte := (List.range 8).map (beByte v)

/-- A read-out command over a buffer or the bytes of `VALUE` (43_readout): first the
check that there is something valid, else `NotReady`; then the check that the index is
below the bound, else `IndexRange` (60_exceptions R178); then the byte. -/
def readOut (valid : Bool) (bound : Nat) (i : Byte) (get : State → Except Fault Byte)
    (s : State) : Result :=
  if valid then
    if i.toNat < bound then
      match get s with
      | .ok b => respond b s
      | .error f => .fault f
    else raise .indexRange s
  else raise .notReady s

end Sys2Proof.Machine
end

