-- ==== Sys2Proof/Machine/Formatter.lean ====
section
/-! DEFINITION. The constant formatter: the functions `hexdigit` and `text_of`
(spec/42_formatter.md R125, R126) and the commands LDV and FMT (R122, R127). -/

namespace Sys2Proof.Machine

/-- `hexdigit(d)` (R125): the character code of a lowercase hexadecimal digit, in
ASCII (PRESUMED by the spec itself: 93 GK1, assumption log 11). -/
def hexdigit (d : BitVec 4) : Byte :=
  if d.toNat ≤ 9 then 0x30 + d.setWidth 8 else 0x61 + (d.setWidth 8 - 10)

/-- The two digits of a byte, high nibble first (R126). -/
def hexPair (b : Byte) : List Byte :=
  [hexdigit (b.extractLsb' 4 4), hexdigit (b.extractLsb' 0 4)]

/-- `text_of(v)` (R126): `0x` and the sixteen digits of the bytes of `v`, most
significant first. -/
def textOf (v : BitVec 64) : List Byte :=
  0x30 :: 0x78 :: (beBytes v).flatMap hexPair

/-- `LDV` with the parameter `WORD_ORDER` as an argument (R122, 00_scope R6). -/
def loadValue (order : WordOrder) (s : State) : Result :=
  if s.ilen.toNat = Config.blockLen then
    match readCells .ibuf s 0 8 with
    | .ok b => respond 0x00 (s.setValue (word64 b order))
    | .error f => .fault f
  else raise .badBlockLength s

/-- `LDV` (R122): load `VALUE` from the first 8 bytes of the cipher block in `IBUF`. -/
def execLdv (s : State) : Result :=
  guarded s (loadValue Config.wordOrder)

/-- `FMT` (R127): format `VALUE` into `TEXT`. -/
def execFmt (s : State) : Result :=
  guarded s fun s =>
    if s.vv then respond 0x00 (s.setText (textOf s.value)) else raise .notReady s

end Sys2Proof.Machine
end

