-- ==== Sys2Proof/Machine/Input.lean ====
section
/-! DEFINITION. The input-stream commands NOP, CLR, PUSH (spec/40_input_stream.md). -/

namespace Sys2Proof.Machine

/-- `NOP` (R90): do nothing. -/
def execNop (s : State) : Result :=
  guarded s (respond 0x00)

/-- `CLR` (R91): start a new, empty input byte sequence. -/
def execClr (s : State) : Result :=
  guarded s fun s => respond 0x00 s.clearInput

/-- The three cases of `PUSH` (R92). -/
def pushInput (b : Byte) (s : State) : State :=
  if s.ilen.toNat < Config.ibufCap then s.storeInput b
  else if s.ilen.toNat = Config.ibufCap then s.saturateInput
  else s

/-- `PUSH b` (R92): append the byte `b` to the input byte sequence. -/
def execPush (b : Byte) (s : State) : Result :=
  guarded s fun s => respond 0x00 (pushInput b s)

end Sys2Proof.Machine
end

