-- ==== Sys2Proof/Machine/Padder.lean ====
section
/-! DEFINITION. The Padder: the function `pad` for every positive target length
(spec/41_padder.md R100 to R106) and the commands PAD16, PAD32 (R107, R108). -/

namespace Sys2Proof.Machine

/-- Why the reference function `pad` returns no sequence. -/
inductive PadError where
  /-- `len(input) > targetLength` (R104). -/
  | inputTooLong
  /-- `targetLength > 0` is violated: the source gives no behaviour (R100, 93 U5).
  DEDUCED: assumption log 9. -/
  | targetNotPositive
  deriving DecidableEq, Repr

/-- XOR a marker into the byte at one position. -/
def xorAt (i : Nat) (m : Byte) (bs : List Byte) : List Byte :=
  bs.modify i (fun x => x ^^^ m)

/-- The case `n < T` of `pad` (R102): copy, zero-fill, then the two XOR edits one after
the other on the same buffer, whether or not their positions coincide (R103, R110). -/
def padFill (input : List Byte) (t : Nat) : List Byte :=
  xorAt (t - 1) Config.markEnd
    (xorAt input.length Config.markStart
      (input ++ List.replicate (t - input.length) Config.fill))

/-- `pad(input, targetLength)` for an input that is not too long: unchanged at the
target length (R101), else filled and marked (R102). -/
def padBytes (input : List Byte) (t : Nat) : List Byte :=
  if input.length = t then input else padFill input t

/-- The reference function `pad(input, targetLength)` (R100). -/
def pad (input : List Byte) (t : Nat) : Except PadError (List Byte) :=
  if t = 0 then .error .targetNotPositive
  else if t < input.length then .error .inputTooLong
  else .ok (padBytes input t)

/-- The common body of `PAD16` and `PAD32`: the length check on `ILEN` first, since
`ILEN == 33` means an input longer than `IBUF` holds (R107, R108). -/
def padTo (t : Nat) (s : State) : Result :=
  if t < s.ilen.toNat then raise .inputTooLong s
  else
    match readCells .ibuf s 0 s.ilen.toNat with
    | .ok input => respond 0x00 (s.setOutput (padBytes input t) t)
    | .error f => .fault f

/-- `PAD16` (R107): pad the input byte sequence to 16 bytes. -/
def execPad16 (s : State) : Result :=
  guarded s (padTo Config.blockLen)

/-- `PAD32` (R108): pad the input byte sequence to 32 bytes. -/
def execPad32 (s : State) : Result :=
  guarded s (padTo Config.keyLen)

end Sys2Proof.Machine
end

