-- ==== Sys2Proof/Machine/Flags.lean ====
section
/-! DEFINITION. The flags and the control registers of PADFMT (spec/10_state.md R31,
R32): views of other state, computed where they are read. There are no arithmetic
condition codes. -/

namespace Sys2Proof.Machine

/-- `OV`: a padded output is valid, `OLEN != 0` (R31, R32). -/
def State.ov (s : State) : Bool := s.olen != 0

/-- `O32`: the valid output is 32 bytes (R32). -/
def State.o32 (s : State) : Bool := s.olen == 32

/-- `IOVF`: 33 or more bytes were pushed, `ILEN == 33` (R31, R32). -/
def State.iovf (s : State) : Bool := s.ilen == 33

/-- `b` where the condition holds, else no bit. -/
def bitIf (c : Bool) (b : Byte) : Byte := if c then b else 0x00

/-- The `STATUS` byte (R32, 43_readout R143). -/
def statusByte (s : State) : Byte :=
  bitIf s.ov 0x01 ||| bitIf s.o32 0x02 ||| bitIf s.vv 0x04 ||| bitIf s.tv 0x08
    ||| bitIf s.iovf 0x10

/-- Control register 1: `zext_8(ILEN)` (R32). -/
def ilenByte (s : State) : Byte := s.ilen.setWidth 8

/-- Control register 2: `zext_8(OLEN)` (R32). -/
def olenByte (s : State) : Byte := s.olen.setWidth 8

end Sys2Proof.Machine
end

