-- ==== Sys2Proof/Machine/Readout.lean ====
section
/-! DEFINITION. The read-out commands RDO, RDV, RDT, RDS, RDIL, RDOL
(spec/43_readout.md). -/

namespace Sys2Proof.Machine

/-- `RDO i` (R140): byte `i` of the padded output. -/
def execRdo (i : Byte) (s : State) : Result :=
  guarded s (readOut s.ov s.olen.toNat i (readCell .obuf i.toNat))

/-- `RDV i` (R141): byte `i` of `VALUE`, most significant byte first. -/
def execRdv (i : Byte) (s : State) : Result :=
  guarded s (readOut s.vv 8 i fun s => .ok (beByte s.value i.toNat))

/-- `RDT i` (R142): character `i` of the formatted text. -/
def execRdt (i : Byte) (s : State) : Result :=
  guarded s (readOut s.tv Config.textLen i (readCell .text i.toNat))

/-- `RDS` (R143): the `STATUS` byte, control register 0. -/
def execRds (s : State) : Result :=
  guarded s fun s => respond (statusByte s) s

/-- `RDIL` (R144): the input length counter, control register 1. -/
def execRdil (s : State) : Result :=
  guarded s fun s => respond (ilenByte s) s

/-- `RDOL` (R145): the valid length of the padded output, control register 2. -/
def execRdol (s : State) : Result :=
  guarded s fun s => respond (olenByte s) s

end Sys2Proof.Machine
end

