-- ==== Sys2Proof/Machine/Dispatch.lean ====
section
/-! DEFINITION. The meaning of each command (spec/30_encoding.md R74, column "semantics"). -/

namespace Sys2Proof.Machine

def exec (i : Instr) (s : State) : Host.Outcome State Fault Refusal :=
  match i with
  | .nop => Sys2Proof.Machine.execNop s
  | .clr => Sys2Proof.Machine.execClr s
  | .push b => Sys2Proof.Machine.execPush b s
  | .pad16 => Sys2Proof.Machine.execPad16 s
  | .pad32 => Sys2Proof.Machine.execPad32 s
  | .ldv => Sys2Proof.Machine.execLdv s
  | .fmt => Sys2Proof.Machine.execFmt s
  | .rdo k => Sys2Proof.Machine.execRdo k s
  | .rdv k => Sys2Proof.Machine.execRdv k s
  | .rdt k => Sys2Proof.Machine.execRdt k s
  | .rds => Sys2Proof.Machine.execRds s
  | .rdil => Sys2Proof.Machine.execRdil s
  | .rdol => Sys2Proof.Machine.execRdol s

end Sys2Proof.Machine
end

