-- ==== Sys2Proof/Machine/Step.lean ====
section
/-! DEFINITION. One step of PADFMT at the level of whole transactions
(spec/10_state.md R37): one host event, and for a command word exactly one response. -/

namespace Sys2Proof.Machine

/-- One transaction: the word is accepted, decoded (30_encoding R78) and executed. -/
def transact (w : Word) (s : State) : Host.Outcome State Fault Refusal :=
  match decode w with
  | .ok i => exec i s.accept
  | .error _ => illegalWord s.accept

/-- One step: the host's next event. With nothing pending the engine is idle and
nothing changes (70_reset R194; DEDUCED: assumption log 5). -/
def step (s : State) : Host.Outcome State Fault Refusal :=
  match s.pending with
  | [] => .next s
  | .reset :: rest => .next (resetEvent (s.withPending rest))
  | .command w :: rest => transact w (s.withPending rest)

/-- The host presents one command word, its bits numbered as spec/opcode_table.json
numbers them, before everything else it has yet to do. DESIGN CHOICE: assumption
log 4. -/
def State.withFetchWord (s : State) (nbits w : Nat) : State :=
  s.withPending (.command (BitVec.ofNat 16 (w % 2 ^ nbits)) :: s.pending)

end Sys2Proof.Machine
end

