-- ==== Sys2Proof/Machine/Asm.lean ====
section
/-! DEFINITION. The assembler notation of PADFMT (spec/30_encoding.md R80, R81): one
command or pseudo-instruction per line, and the listing of a command. It is notation of
the host's and has no effect on the engine (spec/92_eei_decisions.md D23). Text is a list
of characters. What R80 leaves open is a DESIGN CHOICE (assumption log 12). -/

namespace Sys2Proof.Machine

/-- The pseudo-instructions (R81). -/
inductive Pseudo where
  | pushb (bytes : List Byte)
  | pushs (text : List Char)
  | rdoall (n : Nat)
  | rdvall
  | rdtall
  deriving DecidableEq, Repr

/-- The commands that read cells `0 .. n-1` with one read-out command. -/
def readAll (cmd : Byte → Instr) (n : Nat) : List Instr :=
  (List.range n).map fun i => cmd (BitVec.ofNat 8 i)

/-- The byte of a character `PUSHS` accepts: its ASCII code, 0x20..0x7E (R81). -/
def asciiByte (c : Char) : Option Byte :=
  if 0x20 ≤ c.toNat ∧ c.toNat ≤ 0x7E then some (BitVec.ofNat 8 c.toNat) else none

/-- The bytes of a text, if every character is accepted. -/
def asciiBytes : List Char → Option (List Byte)
  | [] => some []
  | c :: cs =>
    match asciiByte c, asciiBytes cs with
    | some b, some bs => some (b :: bs)
    | _, _ => none

/-- What a pseudo-instruction expands to (R81), in order; `none` where R81 admits no such
line. -/
def expand : Pseudo → Option (List Instr)
  | .pushb bs => some (bs.map .push)
  | .pushs cs => (asciiBytes cs).map fun bs => bs.map .push
  | .rdoall n => if n = 16 ∨ n = 32 then some (readAll .rdo n) else none
  | .rdvall => some (readAll .rdv 8)
  | .rdtall => some (readAll .rdt 18)

/-! ## Reading a line -/

/-- Blanks between the words of a line. -/
def isBlank (c : Char) : Bool := c == ' ' || c == '\t'

/-- The line up to its comment, `;` to the end of the line (R80). -/
def uncomment (line : List Char) : List Char := line.takeWhile (· != ';')

/-- The words of a line, the word read so far given in reverse. -/
def wordsFrom : List Char → List Char → List (List Char)
  | [], [] => []
  | [], w => [w.reverse]
  | c :: cs, w =>
    if isBlank c then
      if w.isEmpty then wordsFrom cs [] else w.reverse :: wordsFrom cs []
    else wordsFrom cs (c :: w)

/-- The words of a line. -/
def lineWords (line : List Char) : List (List Char) := wordsFrom line []

/-- The value of a digit in a base up to 16. -/
def digitValue (base : Nat) (c : Char) : Option Nat :=
  let n := c.toNat
  let d :=
    if 48 ≤ n ∧ n ≤ 57 then n - 48
    else if 97 ≤ n ∧ n ≤ 102 then n - 87
    else if 65 ≤ n ∧ n ≤ 70 then n - 55
    else base
  if d < base then some d else none

/-- The number a run of digits spells, the part read so far given. -/
def digitsFrom (base : Nat) : Nat → List Char → Option Nat
  | acc, [] => some acc
  | acc, c :: cs =>
    match digitValue base c with
    | some d => digitsFrom base (acc * base + d) cs
    | none => none

/-- An unsigned integer in decimal or hexadecimal (R80). Leading zeros and hexadecimal
digits of either case are accepted. DESIGN CHOICE: assumption log 12. -/
def numberOf : List Char → Option Nat
  | [] => none
  | ['0', 'x'] => none
  | '0' :: 'x' :: cs => digitsFrom 16 0 cs
  | cs => digitsFrom 10 0 cs

/-- An operand: an unsigned integer 0..255 (R80). -/
def operandOf (w : List Char) : Option Byte :=
  match numberOf w with
  | some n => if n ≤ 255 then some (BitVec.ofNat 8 n) else none
  | none => none

/-- The operands of a line. -/
def operandsOf : List (List Char) → Option (List Byte)
  | [] => some []
  | w :: ws =>
    match operandOf w, operandsOf ws with
    | some b, some bs => some (b :: bs)
    | _, _ => none

/-- The mnemonic of a command (R74, R80). -/
def mnemonicOf : Instr → List Char
  | .nop => ['N', 'O', 'P']
  | .clr => ['C', 'L', 'R']
  | .push _ => ['P', 'U', 'S', 'H']
  | .pad16 => ['P', 'A', 'D', '1', '6']
  | .pad32 => ['P', 'A', 'D', '3', '2']
  | .ldv => ['L', 'D', 'V']
  | .fmt => ['F', 'M', 'T']
  | .rdo _ => ['R', 'D', 'O']
  | .rdv _ => ['R', 'D', 'V']
  | .rdt _ => ['R', 'D', 'T']
  | .rds => ['R', 'D', 'S']
  | .rdil => ['R', 'D', 'I', 'L']
  | .rdol => ['R', 'D', 'O', 'L']

/-- The commands that take no operand (R80). -/
def plainCommands : List Instr :=
  [.nop, .clr, .pad16, .pad32, .ldv, .fmt, .rds, .rdil, .rdol]

/-- The commands that take one operand (R80), at a given operand. -/
def operandCommands (b : Byte) : List Instr :=
  [.push b, .rdo b, .rdv b, .rdt b]

/-- The alternative spellings `PAD 16`, `PAD 32`, `RDC 0`, `RDC 1`, `RDC 2` (R80). They are
matched by the operand's value, so that any numeral of it is accepted (`PAD 0x10`,
`PAD 016`, `RDC 0x1`). DESIGN CHOICE: assumption log 12. -/
def otherSpelling (m : List Char) (b : Byte) : Option Instr :=
  if m = ['P', 'A', 'D'] then
    if b = 16 then some .pad16 else if b = 32 then some .pad32 else none
  else if m = ['R', 'D', 'C'] then
    if b = 0 then some .rds else if b = 1 then some .rdil
    else if b = 2 then some .rdol else none
  else none

/-- A command line: a mnemonic and its operands. -/
def commandOf (m : List Char) (ops : List Byte) : Option Instr :=
  match ops with
  | [] => plainCommands.find? fun i => mnemonicOf i = m
  | [b] =>
    match (operandCommands b).find? fun i => mnemonicOf i = m with
    | some i => some i
    | none => otherSpelling m b
  | _ => none

/-- A pseudo-instruction line other than `PUSHS`. `RDOALL` takes any numeral of 16 or 32.
DESIGN CHOICE: assumption log 12. -/
def pseudoOf (m : List Char) (ops : List Byte) : Option Pseudo :=
  if m = ['P', 'U', 'S', 'H', 'B'] then some (.pushb ops)
  else
    match ops with
    | [] =>
      if m = ['R', 'D', 'V', 'A', 'L', 'L'] then some .rdvall
      else if m = ['R', 'D', 'T', 'A', 'L', 'L'] then some .rdtall
      else none
    | [n] => if m = ['R', 'D', 'O', 'A', 'L', 'L'] then some (.rdoall n.toNat) else none
    | _ => none

/-- The text of a `PUSHS "text"` line: what stands between the two quotes, with nothing
after the second but a comment. The text may hold blanks and `;`. -/
def quotedOf (rest : List Char) : Option (List Char) :=
  match rest.dropWhile isBlank with
  | '"' :: cs =>
    match cs.dropWhile (· != '"') with
    | _ :: tail => if (uncomment tail).all isBlank then some (cs.takeWhile (· != '"')) else none
    | [] => none
  | _ => none

/-- The rest of a line that starts with `PUSHS`, then a blank or the opening quote: no blank
need stand between them (`PUSHS"text"`). DESIGN CHOICE: assumption log 12. -/
def afterPushs (line : List Char) : Option (List Char) :=
  match line.dropWhile isBlank with
  | 'P' :: 'U' :: 'S' :: 'H' :: 'S' :: rest =>
    match rest with
    | [] => some []
    | c :: _ => if isBlank c || c == '"' then some rest else none
  | _ => none

/-- A line without `PUSHS`, as its words. -/
def assembleWords : List (List Char) → Option (List Instr)
  | [] => some []
  | m :: ws =>
    match operandsOf ws with
    | none => none
    | some ops =>
      match commandOf m ops with
      | some i => some [i]
      | none =>
        match pseudoOf m ops with
        | some p => expand p
        | none => none

/-- One line of assembler (R80, R81): the commands it stands for, none for an empty line
or a comment; `none` where it is no line of the notation. -/
def assembleLine (line : List Char) : Option (List Instr) :=
  match afterPushs line with
  | some rest =>
    match quotedOf rest with
    | some cs => expand (.pushs cs)
    | none => none
  | none => assembleWords (lineWords (uncomment line))

/-! ## Listing a command -/

/-- The hexadecimal digit of a nibble, as a character. -/
def digitChar (d : BitVec 4) : Char := Char.ofNat (hexdigit d).toNat

/-- A byte as two hexadecimal digits. -/
def byteChars (b : Byte) : List Char :=
  [digitChar (b.extractLsb' 4 4), digitChar (b.extractLsb' 0 4)]

/-- The operand column of a listing. R80 admits decimal and hexadecimal; the model
writes hexadecimal. -/
def operandChars (i : Instr) : List Char :=
  match i with
  | .push b | .rdo b | .rdv b | .rdt b => [' ', '0', 'x'] ++ byteChars b
  | .nop | .clr | .pad16 | .pad32 | .ldv | .fmt | .rds | .rdil | .rdol => []

/-- The source line of a command: mnemonic and operand (R80). -/
def sourceLine (i : Instr) : List Char := mnemonicOf i ++ operandChars i

/-- The listing of a command: the word in four hexadecimal digits, the mnemonic, the
operand (R80). -/
def listing (i : Instr) : List Char :=
  byteChars (opField (encode i)) ++ byteChars (argField (encode i)) ++ [' ', ' ']
    ++ sourceLine i

end Sys2Proof.Machine
end

