-- ==== Sys2Proof/Machine/Derive.lean ====
section
/-! DEFINITION. The derive sequence (spec/44_derive_sequence.md R160 to R164): a
reference function of what the host computes with PADFMT, the text encoding and the
cipher being its arguments (spec/00_scope.md R8). It adds no state and no command. DEDUCED:
assumption log 13. -/

namespace Sys2Proof.Machine

/-- The failures of `derive` (R164). `InvalidEncoding` is the host's, never PADFMT's
(60_exceptions R182). -/
inductive DeriveError where
  | invalidEncoding
  | inputTooLong
  deriving DecidableEq, Repr

/-- The cipher `E` (R162, 00_scope R8): total, and it gives exactly one CipherBlock of 16
bytes for a CipherKey of 32 and a CipherBlock of 16 bytes. Nothing else is assumed. -/
structure Cipher where
  encrypt : List Byte → List Byte → List Byte
  encrypt_length : ∀ key block : List Byte, key.length = Config.keyLen →
    block.length = Config.blockLen → (encrypt key block).length = Config.blockLen

/-- The source's DerivedConstant (00_scope R15): a value and its text. -/
structure DerivedConstant where
  value : BitVec 64
  text : List Byte
  deriving DecidableEq, Repr

/-- The output half of `derive` on one cipher block of 16 bytes (R163 step 4). `derive`
calls it on the cipher's block only. -/
def constantOf (order : WordOrder) (block : List Byte) : DerivedConstant :=
  let v := word64 (block.take 8) order
  ⟨v, textOf v⟩

/-- The two padded blocks, key first (R163 steps 1 and 2). -/
def paddedPair (k l : List Byte) : Except DeriveError (List Byte × List Byte) :=
  match pad k Config.keyLen with
  | .error _ => .error .inputTooLong
  | .ok paddedKey =>
    match pad l Config.blockLen with
    | .error _ => .error .inputTooLong
    | .ok paddedLabel => .ok (paddedKey, paddedLabel)

/-- `derive(keyString, labelString)` (R160, R163, R164) for texts of any type, an
`ENCODE` and a cipher `E`. Both strings are converted before either is padded (R164). -/
def derive {Text : Type} (encodeText : Text → Option (List Byte))
    (cipher : Cipher) (order : WordOrder) (key label : Text) :
    Except DeriveError DerivedConstant :=
  match encodeText key, encodeText label with
  | some k, some l =>
    match paddedPair k l with
    | .ok (paddedKey, paddedLabel) => .ok (constantOf order (cipher.encrypt paddedKey paddedLabel))
    | .error e => .error e
  | _, _ => .error .invalidEncoding

end Sys2Proof.Machine
end

