-- ==== Sys2Proof/Machine/HostRun.lean ====
section
/-! DEFINITION. The derive sequence run on the engine (spec/44_derive_sequence.md R163):
the command words the host sends, the check of every response (spec/70_reset_and_hazards.md
R199), what it collects from the read-outs, and the cipher between the two halves. -/

namespace Sys2Proof.Machine

/-- `FC`, bits 15:8 of a response word (30_encoding R71). -/
def fcField (r : Word) : Byte := r.extractLsb' 8 8

/-- `DATA`, bits 7:0 of a response word (R71). -/
def dataField (r : Word) : Byte := r.extractLsb' 0 8

/-- Why the host does not go on. -/
inductive HostStop where
  /-- A text has no encoding; nothing was sent (R161, 60_exceptions R182). -/
  | invalidEncoding
  /-- A response with this `FC`, which is not 0x00, and the engine it left (R164). -/
  | response (fc : Byte) (s : State)
  /-- No response: the machine stopped, which the invariant of the engine rules out. -/
  | noResponse
  deriving DecidableEq, Repr

/-- Send one command word and check its response: the `DATA` byte if `FC` is 0x00. -/
def sendOne (i : Instr) (s : State) : Except HostStop (Byte × State) :=
  match transact (encode i) s with
  | .next t =>
    match t.responses.getLast? with
    | some r => if fcField r = 0x00 then .ok (dataField r, t) else .error (.response (fcField r) t)
    | none => .error .noResponse
  | .fault _ => .error .noResponse
  | .refused _ => .error .noResponse

/-- Send command words one after another, each response checked before the next is sent,
and collect the `DATA` bytes. -/
def sendAll : List Instr → State → Except HostStop (List Byte × State)
  | [], s => .ok ([], s)
  | i :: is, s =>
    match sendOne i s with
    | .error e => .error e
    | .ok (d, t) =>
      match sendAll is t with
      | .error e => .error e
      | .ok (ds, u) => .ok (d :: ds, u)

/-- Send commands that return no data, then the commands of a read-out, and collect what
the read-out gives. -/
def sendThenRead (cmds reads : List Instr) (s : State) : Except HostStop (List Byte × State) :=
  match sendAll cmds s with
  | .error e => .error e
  | .ok (_, t) => sendAll reads t

/-- Step 1 (R163): the key, `PUSHB` then `PAD32`. -/
def keyCommands (k : List Byte) : List Instr := k.map .push ++ [.pad32]

/-- Step 2 (R163): the label, `CLR`, `PUSHB`, `PAD16`. -/
def labelCommands (l : List Byte) : List Instr := .clr :: (l.map .push ++ [.pad16])

/-- Step 4 (R163): the cipher block, `CLR`, `PUSHB`, `LDV`, `FMT`. -/
def blockCommands (block : List Byte) : List Instr := .clr :: (block.map .push ++ [.ldv, .fmt])

/-- Step 4 (R163): the value from `RDVALL`, most significant byte first (43_readout R141),
and the text from `RDTALL`. -/
def formatOnEngine (block : List Byte) (s : State) : Except HostStop (DerivedConstant × State) :=
  match sendThenRead (blockCommands block) (readAll .rdv 8) s with
  | .error e => .error e
  | .ok (valueBytes, t) =>
    match sendAll (readAll .rdt Config.textLen) t with
    | .error e => .error e
    | .ok (text, u) => .ok (⟨word64 valueBytes .be, text⟩, u)

/-- The derive sequence (R163) from the bytes of the two strings: the padded key is read
out before the label is padded (70_reset R196), and the cipher runs outside. -/
def deriveBytesOnEngine (cipher : Cipher) (k l : List Byte) (s : State) :
    Except HostStop (DerivedConstant × State) :=
  match sendThenRead (keyCommands k) (readAll .rdo Config.keyLen) s with
  | .error e => .error e
  | .ok (paddedKey, t) =>
    match sendThenRead (labelCommands l) (readAll .rdo Config.blockLen) t with
    | .error e => .error e
    | .ok (paddedLabel, u) => formatOnEngine (cipher.encrypt paddedKey paddedLabel) u

/-- `derive(keyString, labelString)` as a host obtains it from an engine (R163, R164): both
strings are encoded before any byte is sent. -/
def deriveOnEngine {Text : Type} (encodeText : Text → Option (List Byte)) (cipher : Cipher)
    (key label : Text) (s : State) : Except HostStop (DerivedConstant × State) :=
  match encodeText key, encodeText label with
  | some k, some l => deriveBytesOnEngine cipher k l s
  | _, _ => .error .invalidEncoding

end Sys2Proof.Machine
end

