-- ==== Sys2Proof/Machine/Ports.lean ====
section
/-! DEFINITION. The ports of PADFMT at the level of clock edges (spec/10_state.md R37,
spec/70_reset_and_hazards.md R191, R195, R201, R202): a valid/ready handshake around the
transactions of Step.lean, with the host's duty towards the command port (70_reset R195,
spec/93_implementation_defined.md U14). One rising edge of `clk` is one application of `clockEdge`.
How many edges a command takes is `LAT`, a free value. DESIGN CHOICE: assumption log 6. -/

namespace Sys2Proof.Machine

/-- Where the engine stands in the handshake. -/
inductive Phase where
  /-- The last edge sampled `rst` high: `cmd_ready` and `rsp_valid` are 0 (R191). -/
  | held
  /-- No command inside; `cmd_ready` is 1. -/
  | idle
  /-- A command is inside and its response is this many edges away. -/
  | busy (w : Word) (left : Nat)
  /-- The response to the last command is presented until the host takes it. -/
  | answering
  deriving DecidableEq, Repr

/-- The input ports at a rising edge (R37). -/
structure PortIn where
  rst : Bool
  cmdValid : Bool
  cmdData : Word
  rspReady : Bool
  deriving DecidableEq, Repr

/-- The output ports between two edges (R37). `rspData` has no value while `rsp_valid`
is 0. -/
structure PortOut where
  cmdReady : Bool
  rspValid : Bool
  rspData : Option Word
  deriving DecidableEq, Repr

/-- The engine with its handshake. The host's script `engine.pending` plays no part
here: the command words come in on the port. The last three fields are the model's: what
the host's duty on `cmd_data` (R195) and the free value `LAT` are read from. -/
structure PortState where
  engine : State
  phase : Phase
  /-- The word presented on the last edge and not accepted on it, if there was one. -/
  offered : Option Word
  /-- The command words accepted since the launch, newest first. -/
  sent : List Word
  /-- How many rising edges there have been since the launch. -/
  edges : Nat
  deriving DecidableEq, Repr

/-- After the edge that ends the first reset (70_reset R192, R194), nothing presented. -/
def PortState.launch : PortState where
  engine := State.reset
  phase := .held
  offered := none
  sent := []
  edges := 0

/-- The output ports (R37). -/
def portOut (p : PortState) : PortOut :=
  match p.phase with
  | .held => ⟨false, false, none⟩
  | .idle => ⟨true, false, none⟩
  | .busy _ _ => ⟨false, false, none⟩
  | .answering => ⟨false, true, p.engine.responses.getLast?⟩

/-- A command is accepted on an edge where `cmd_valid` and `cmd_ready` are both 1 and
`rst` is 0 (R37). -/
def accepts (inp : PortIn) (p : PortState) : Bool :=
  inp.cmdValid && (portOut p).cmdReady && !inp.rst

/-- A response is delivered on an edge where `rsp_valid` and `rsp_ready` are both 1
(R37), also where `rst` is 1 on that edge and resets the engine (R191). DESIGN CHOICE:
assumption log 14. -/
def delivers (inp : PortIn) (p : PortState) : Bool :=
  (portOut p).rspValid && inp.rspReady

/-- The host keeps its duty: a word presented and not accepted stays the same for as long
as `cmd_valid` is 1 (70_reset R195). -/
def steady (inp : PortIn) (p : PortState) : Bool :=
  match p.offered with
  | some w => !inp.cmdValid || inp.cmdData == w
  | none => true

/-- The word presented on this edge and not accepted on it. -/
def stillOffered (inp : PortIn) (p : PortState) : Option Word :=
  if inp.cmdValid && !accepts inp p then some inp.cmdData else none

/-- The command words accepted once this edge is over, newest first. -/
def sentAfter (inp : PortIn) (p : PortState) : List Word :=
  if accepts inp p then inp.cmdData :: p.sent else p.sent

/-- The state after an edge that leaves the engine at `s` and the handshake at `ph`. -/
def PortState.after (p : PortState) (inp : PortIn) (s : State) (ph : Phase) : PortState where
  engine := s
  phase := ph
  offered := stillOffered inp p
  sent := sentAfter inp p
  edges := p.edges + 1

/-- The latency of the command accepted on this edge (70_reset R201): a free value. -/
def latencyOf (inp : PortIn) (p : PortState) : Nat :=
  Config.latency p.edges (inp.cmdData :: p.sent)

/-- What an edge ends in: the engine's state and the handshake, or a stop. -/
abbrev EdgeResult := Host.Outcome (State × Phase) Fault Refusal

/-- One edge of a command inside the engine: its effect and its response come together,
on the last edge (20_memory R58). -/
def workEdge (w : Word) (left : Nat) (s : State) : EdgeResult :=
  if left ≤ 1 then
    match transact w s with
    | .next t => .next (t, .answering)
    | .fault f => .fault f
    | .refused r => .refused r
  else .next (s, .busy w (left - 1))

/-- The engine's part of one edge. Reset has priority over everything (60_exceptions
R178): a command inside is abandoned without effect or response (R191). -/
def engineEdge (inp : PortIn) (p : PortState) : EdgeResult :=
  if inp.rst then .next (resetEvent p.engine, .held)
  else
    match p.phase with
    | .held => .next (p.engine, .idle)
    | .idle =>
      if inp.cmdValid then .next (p.engine, .busy inp.cmdData (latencyOf inp p))
      else .next (p.engine, .idle)
    | .busy w left => workEdge w left p.engine
    | .answering =>
      if inp.rspReady then .next (p.engine, .idle) else .next (p.engine, .answering)

/-- One rising edge of `clk`. A host that changes the word it presents has no move, with or
without reset (93 U14: "a model gives the host no such move"). DEDUCED: assumption log 7. -/
def clockEdge (inp : PortIn) (p : PortState) : Host.Outcome PortState Fault Refusal :=
  if steady inp p then
    match engineEdge inp p with
    | .next (s, ph) => .next (p.after inp s ph)
    | .fault f => .fault f
    | .refused r => .refused r
  else .refused .unsteadyCommand

/-- One edge after another, each with its inputs, stopping at the first stop. -/
def clockEdges : List PortIn → PortState → Host.Outcome PortState Fault Refusal
  | [], p => .next p
  | inp :: rest, p =>
    match clockEdge inp p with
    | .next q => clockEdges rest q
    | .fault f => .fault f
    | .refused r => .refused r

end Sys2Proof.Machine
end

