-- ==== Sys2Proof/Safety.lean ====
section
/-! DEFINITION. The invariant of PADFMT's states (spec/10_state.md R38), the three ways a
command can end (spec/60_exceptions.md R181), and what it is for a run to end well. -/

namespace Sys2Proof.Machine

/-- The addresses of a buffer's defined cells. -/
def definedCells (m : Memory) : List Nat := m.map Prod.fst

/-- The invariant of the nine pieces of state (10_state R38 items 1 to 4 and 6), with
which cells are defined (R21, R23, R27). That the cells' addresses are exactly `0, 1, ..`
in order includes the canonical form of each buffer. -/
abbrev State.EngineInv (s : State) : Prop :=
  s.ilen.toNat ≤ 33 ∧
  (s.olen.toNat = 0 ∨ s.olen.toNat = 16 ∨ s.olen.toNat = 32) ∧
  (s.tv = true → s.vv = true) ∧
  (s.tv = true → s.text = memOf (textOf s.value)) ∧
  (s.tv = false → s.text = []) ∧
  s.fcode.toNat ≤ 5 ∧
  definedCells s.ibuf = List.range (min s.ilen.toNat 32) ∧
  definedCells s.obuf = List.range s.olen.toNat

/-- The invariant between two commands: the engine's, and exactly one response for each
accepted command (R37). -/
abbrev State.Inv (s : State) : Prop :=
  s.EngineInv ∧ s.responses.length = s.pc

/-- The bytes of a buffer's defined cells, in address order. -/
def bytesOf (m : Memory) : List Byte := m.map Prod.snd

/-- How a command ended (60_exceptions R181). -/
inductive Reply where
  | completed
  | faulted (code : Byte)
  | refused
  deriving DecidableEq, Repr

/-- R181's classification, read from the states before and after a command: refused if
the engine was frozen already, a fault if the command froze it, else completed. -/
def replyOf (before after : State) : Reply :=
  if before.fcode ≠ 0 then .refused
  else if after.fcode ≠ 0 then .faulted after.fcode
  else .completed

/-- A run ended well exactly when `FCODE == 0x00` in its final state (70_reset R194). -/
def State.endedWell (s : State) : Bool := s.fcode == 0

/-- The nine pieces of state of 10_state R36 are the same in both states. -/
def sameEngine (s t : State) : Prop :=
  t.ibuf = s.ibuf ∧ t.ilen = s.ilen ∧ t.obuf = s.obuf ∧ t.olen = s.olen ∧
  t.value = s.value ∧ t.vv = s.vv ∧ t.text = s.text ∧ t.tv = s.tv ∧ t.fcode = s.fcode

/-- The input abstraction (40_input_stream R93): the engine holds the unbounded sequence
`bs` of all bytes pushed since reset or the last `CLR`. -/
def HoldsInput (s : State) (bs : List Byte) : Prop :=
  s.ilen.toNat = min bs.length 33 ∧ s.ibuf = memOf (bs.take 32)

/-- The two states agree on everything the spec calls defined (10_state R36, column
"defined when"): `VALUE` only while `VV` is 1. Undefined cells have no value at all. -/
def sameDefined (s t : State) : Prop :=
  (s.vv = true → t.value = s.value) ∧
  t = { s with value := t.value }

end Sys2Proof.Machine
end

