-- ==== Sys2Proof/Certificates/Slice0/Obligations.lean ====
section
/-! DEFINITION. The statements for the provers, from the numbered rules of spec/. -/

open Sys2Proof Sys2Proof.Machine

namespace Sys2Proof.Claims

/-- The rows of the opcode map as (mask, match), written out from 30_encoding R74. -/
def tableRows : List (Word × Word) :=
  [(0xFFFF, 0x0000), (0xFFFF, 0x0100), (0xFF00, 0x0200), (0xFFFF, 0x0310),
   (0xFFFF, 0x0320), (0xFFFF, 0x0400), (0xFFFF, 0x0500), (0xFF00, 0x0800),
   (0xFF00, 0x0900), (0xFF00, 0x0A00), (0xFFFF, 0x0B00), (0xFFFF, 0x0B01),
   (0xFFFF, 0x0B02)]

/-- The state `s` with the fault of code `c` taken: `FCODE` written, the response
`{c, 0x00}` given, nothing else changed (60_exceptions R176). -/
def faulted (c : Byte) (s : State) : State :=
  { s with fcode := c, responses := s.responses ++ [c ++ (0x00 : Byte)] }

/-- The state `s` with one more response of a completed command, carrying `d`. -/
def answered (d : Byte) (s : State) : State :=
  { s with responses := s.responses ++ [(0x00 : Byte) ++ d] }

/-- The state `s` with one more response of a refused command (60_exceptions R177). -/
def refusedAt (s : State) : State :=
  { s with responses := s.responses ++ [s.fcode ++ (0x00 : Byte)] }

/-- The commands that return no data (43_readout and 30_encoding R71). -/
def returnsNoData : Instr → Prop
  | .nop | .clr | .push _ | .pad16 | .pad32 | .ldv | .fmt => True
  | .rdo _ | .rdv _ | .rdt _ | .rds | .rdil | .rdol => False

/-- The commands of 43_readout, which return one byte. -/
def returnsData (i : Instr) : Prop := ¬ returnsNoData i

/-- Byte `j` of an input of `n` bytes padded to `t` (the closed form of 41_padder R106),
the input's own bytes given by position; no byte at or past `t`. -/
def paddedCell (n t : Nat) (input : Nat → Option Byte) (j : Nat) : Option Byte :=
  if t ≤ j then none
  else if j < n then input j
  else if n + 1 = t then some 0x81
  else if j = n then some 0x80
  else if j + 1 = t then some 0x01
  else some 0x00

/-- What 70_reset R190 says of the nine pieces of state after a reset event: five are 0 and
no cell of a buffer is defined. Of `VALUE`, which is unspecified there, nothing. -/
def isResetState (t : State) : Prop :=
  t.ilen = 0 ∧ t.olen = 0 ∧ t.vv = false ∧ t.tv = false ∧ t.fcode = 0x00 ∧
  ∀ a, readMem t.ibuf a = none ∧ readMem t.obuf a = none ∧ readMem t.text a = none

/-- Inputs of edges that accept nothing, with a host that keeps its duty: a word presented
on one edge and on the next stays the same (70_reset R195). -/
def keepsWord : List PortIn → Prop
  | a :: b :: rest => (a.cmdValid = true → b.cmdValid = true → b.cmdData = a.cmdData) ∧
      keepsWord (b :: rest)
  | [_] => True
  | [] => True

/-- The code of the fault a command word raises in a running engine, from the conditions
of 60_exceptions R171 to R175; 0x00 where it raises none. -/
def faultOf (w : Word) (s : State) : Byte :=
  if illegalRow w ≠ none then 0x02
  else
    match decode w with
    | .ok .pad16 => if 16 < s.ilen.toNat then 0x01 else 0x00
    | .ok .pad32 => if 32 < s.ilen.toNat then 0x01 else 0x00
    | .ok .ldv => if s.ilen.toNat ≠ 16 then 0x03 else 0x00
    | .ok .fmt => if s.vv = false then 0x04 else 0x00
    | .ok (.rdo i) =>
      if s.olen.toNat = 0 then 0x04 else if s.olen.toNat ≤ i.toNat then 0x05 else 0x00
    | .ok (.rdv i) => if s.vv = false then 0x04 else if 8 ≤ i.toNat then 0x05 else 0x00
    | .ok (.rdt i) => if s.tv = false then 0x04 else if 18 ≤ i.toNat then 0x05 else 0x00
    | _ => 0x00

end Sys2Proof.Claims

open Sys2Proof.Claims

/-! ## Encoding -/

/-- From 30_encoding R70, R74: no bit of an encoding is dropped. -/
def Obligations.EveryCommandDecodesFromItsWord : Prop :=
  ∀ i : Instr, decode (encode i) = .ok i

/-- From 30_encoding R70, R74: each legal word has one meaning. -/
def Obligations.DecodedWordIsItsCommandsEncoding : Prop :=
  ∀ (w : Word) (i : Instr), decode w = .ok i → encode i = w

/-- 30_encoding R74: a word selects the row for which `w & mask == match`. -/
def Obligations.DecoderFollowsTheOpcodeMap : Prop :=
  ∀ w : Word,
    (w &&& 0xFFFF = 0x0000 → decode w = .ok .nop) ∧
    (w &&& 0xFFFF = 0x0100 → decode w = .ok .clr) ∧
    (w &&& 0xFF00 = 0x0200 → decode w = .ok (.push (w.setWidth 8))) ∧
    (w &&& 0xFFFF = 0x0310 → decode w = .ok .pad16) ∧
    (w &&& 0xFFFF = 0x0320 → decode w = .ok .pad32) ∧
    (w &&& 0xFFFF = 0x0400 → decode w = .ok .ldv) ∧
    (w &&& 0xFFFF = 0x0500 → decode w = .ok .fmt) ∧
    (w &&& 0xFF00 = 0x0800 → decode w = .ok (.rdo (w.setWidth 8))) ∧
    (w &&& 0xFF00 = 0x0900 → decode w = .ok (.rdv (w.setWidth 8))) ∧
    (w &&& 0xFF00 = 0x0A00 → decode w = .ok (.rdt (w.setWidth 8))) ∧
    (w &&& 0xFFFF = 0x0B00 → decode w = .ok .rds) ∧
    (w &&& 0xFFFF = 0x0B01 → decode w = .ok .rdil) ∧
    (w &&& 0xFFFF = 0x0B02 → decode w = .ok .rdol) ∧
    ((∀ r ∈ tableRows, w &&& r.1 ≠ r.2) → ∃ e, decode w = .error e)

/-- From 30_encoding R76: the decoder rejects exactly the words of R76's table, each
under the name of its row. -/
def Obligations.DecoderRejectsExactlyTheListedWords : Prop :=
  ∀ (w : Word) (e : IllegalWord), decode w = .error e ↔ illegalRow w = some e

/-- From 30_encoding R74, R76 (sanity): a few words read from the tables. -/
def Obligations.ListedWordsDecodeAsTheTableSays : Prop :=
  decode 0x0000 = .ok .nop ∧ decode 0x0100 = .ok .clr ∧ decode 0x024D = .ok (.push 0x4D) ∧
  decode 0x0310 = .ok .pad16 ∧ decode 0x0320 = .ok .pad32 ∧ decode 0x0400 = .ok .ldv ∧
  decode 0x0500 = .ok .fmt ∧ decode 0x080F = .ok (.rdo 15) ∧ decode 0x0907 = .ok (.rdv 7) ∧
  decode 0x0A11 = .ok (.rdt 17) ∧ decode 0x0B00 = .ok .rds ∧ decode 0x0B01 = .ok .rdil ∧
  decode 0x0B02 = .ok .rdol ∧ decode 0x0300 = .error .padLength

/-! ## The step -/

/-- From 10_state R29 and 30_encoding R78: a step on a command word that selects a row
runs that row's command, the host's list one shorter and the position one further. -/
def Obligations.StepRunsTheDecodedCommand : Prop :=
  ∀ (s : State) (w : Word) (rest : List HostEvent) (i : Instr),
    s.pending = .command w :: rest → decode w = .ok i →
    step s = exec i { s with pending := rest, pc := s.pc + 1 }

/-- From 10_state R29 and 30_encoding R70: presenting a command's own word runs that
command in the very next step. -/
def Obligations.PresentedWordRunsNext : Prop :=
  ∀ (s : State) (i : Instr),
    step (s.withFetchWord 16 (encode i).toNat) = exec i { s with pc := s.pc + 1 }

/-- 30_encoding R78: the decode check, after the freeze check and before every check a
command makes. -/
def Obligations.DecodeCheckStandsBetweenFreezeAndCommand : Prop :=
  ∀ (s : State) (w : Word) (rest : List HostEvent), s.pending = .command w :: rest →
    (s.fcode ≠ 0x00 →
      step s = .next (refusedAt { s with pending := rest, pc := s.pc + 1 })) ∧
    (s.fcode = 0x00 → (∀ r ∈ tableRows, w &&& r.1 ≠ r.2) →
      step s = .next (faulted 0x02 { s with pending := rest, pc := s.pc + 1 })) ∧
    (s.fcode = 0x00 → (∃ r ∈ tableRows, w &&& r.1 = r.2) →
      ∃ i, decode w = .ok i ∧ step s = exec i { s with pending := rest, pc := s.pc + 1 })

/-- 70_reset R190: the reset state, at the launch and after any number of reset events,
and what the first commands then answer. An undefined cell is "no value", as 10_state R36
asks of a model. Nothing is said of `VALUE`, which R190 leaves unspecified. -/
def Obligations.ResetStateIsTheSpecifiedOne : Prop :=
  State.reset = State.resetAt 0 ∧
  ∀ n : Nat, let t := State.resetAt n
    isResetState t ∧
    exec .rds t = .next (answered 0x00 t) ∧ exec .rdil t = .next (answered 0x00 t) ∧
    exec .rdol t = .next (answered 0x00 t) ∧ exec .fmt t = .next (faulted 0x04 t) ∧
    ∀ i, exec (.rdo i) t = .next (faulted 0x04 t) ∧ exec (.rdv i) t = .next (faulted 0x04 t) ∧
      exec (.rdt i) t = .next (faulted 0x04 t)

/-- From 70_reset R191, R194: a reset event between two commands replaces the state by
the reset state, in every state and frozen or not; the rest of the host's list stays. The
model's choices in the equation: the free value that `VALUE` takes and the count of resets
that advances (assumption log 3), the responses and the position that start again
(assumption log 4). -/
def Obligations.ResetEventRestoresTheResetState : Prop :=
  ∀ (s : State) (rest : List HostEvent), s.pending = .reset :: rest →
    step s = .next { State.resetAt (s.resets + 1) with pending := rest }

/-! ## Invariants -/

/-- The reset state meets the invariant (10_state R38). -/
def Obligations.ResetStateMeetsTheInvariant : Prop :=
  ∀ n : Nat, (State.resetAt n).Inv

/-- 10_state R38 items 1 to 4 and 6, with which cells are defined and one response per
command: every step keeps them, whatever the host does. -/
def Obligations.EveryStepKeepsTheInvariant : Prop :=
  ∀ s t : State, s.Inv → step s = .next t → t.Inv

/-- From 60_exceptions R181 and 70_reset R202: no command is ever stuck; each step
answers a next state. That a faulting and a refused command do (R181 says a fault outcome
and a refusal) is assumption log 1, that an idle step does assumption log 5. -/
def Obligations.NoStepStopsWhereTheInvariantHolds : Prop :=
  ∀ s : State, s.EngineInv → ∃ t, step s = .next t

/-- From 10_state R21, R23, R27, R36 and 20_memory R50: which cells hold a defined value.
That a read of any other cell stops is the model's (assumption log 2). -/
def Obligations.DefinedCellsAreTheSpecifiedOnes : Prop :=
  ∀ s : State, s.EngineInv → ∀ a : Nat,
    ((∃ b, readCell .ibuf a s = .ok b) ↔ a < min s.ilen.toNat 32) ∧
    ((∃ b, readCell .obuf a s = .ok b) ↔ a < s.olen.toNat) ∧
    ((∃ b, readCell .text a s = .ok b) ↔ s.tv = true ∧ a < 18)

/-! ## Responses, faults, the freeze -/

/-- From 10_state R37 and 30_encoding R71: every command word is answered by exactly one
response word. The position is R29's (assumption log 4); that the host's list (assumption
log 4) and the count of resets (assumption log 3) stay is the model's. -/
def Obligations.EveryCommandGetsOneResponse : Prop :=
  ∀ (w : Word) (s t : State), transact w s = .next t →
    ∃ d : Byte, t.responses = s.responses ++ [t.fcode ++ d] ∧
      (t.fcode ≠ 0x00 → d = 0x00) ∧
      (∀ i, decode w = .ok i → returnsNoData i → d = 0x00) ∧
      t.pc = s.pc + 1 ∧ t.pending = s.pending ∧ t.resets = s.resets

/-- 60_exceptions R177: while `FCODE != 0x00` every command is refused. -/
def Obligations.FrozenEngineRefusesEveryCommand : Prop :=
  ∀ s : State, s.fcode ≠ 0x00 →
    (∀ i : Instr, exec i s = .next (refusedAt s)) ∧
    (∀ w : Word, transact w s = .next (refusedAt { s with pc := s.pc + 1 }))

/-- 60_exceptions R176: a faulting command writes `FCODE` and nothing else. -/
def Obligations.FaultWritesOnlyTheFaultCode : Prop :=
  ∀ (w : Word) (s t : State), s.fcode = 0x00 → transact w s = .next t → t.fcode ≠ 0x00 →
    t = faulted t.fcode { s with pc := s.pc + 1 }

/-- 60_exceptions R171 to R175: which command raises which fault, and when; by nothing
else. -/
def Obligations.FaultsAreRaisedExactlyAsListed : Prop :=
  ∀ (w : Word) (s : State), s.EngineInv → s.fcode = 0x00 →
    ∃ t, transact w s = .next t ∧ t.fcode = faultOf w s

/-! ## Input-stream commands -/

/-- 40_input_stream R90. -/
def Obligations.NopDoesNothing : Prop :=
  (∀ s : State, s.fcode = 0x00 → exec .nop s = .next (answered 0x00 s)) ∧
  (∀ s : State, s.fcode ≠ 0x00 → exec .nop s = .next (refusedAt s)) ∧
  decode 0x0000 = .ok .nop ∧
  ∀ w : Word, 1 ≤ w.toNat → w.toNat ≤ 0xFF → ∃ e, decode w = .error e

/-- 40_input_stream R91. An undefined cell is "no value" (10_state R36). -/
def Obligations.ClrEmptiesTheInputOnly : Prop :=
  decode 0x0100 = .ok .clr ∧
  ∀ s : State, s.fcode = 0x00 →
    ∃ t, exec .clr s = .next t ∧
      t = answered 0x00 { s with ibuf := t.ibuf, ilen := 0 } ∧
      (∀ a, readMem t.ibuf a = none) ∧ t.iovf = false ∧
      (s.EngineInv → s.ilen = 0 → t = answered 0x00 s)

/-- 40_input_stream R92: the three cases of `PUSH`, with every byte of the buffer. -/
def Obligations.PushAppendsOneByte : Prop :=
  ∀ (b : Byte) (s : State), s.fcode = 0x00 →
    decode (0x0200 ||| b.setWidth 16) = .ok (.push b) ∧
    (s.ilen.toNat < 32 → ∃ t, exec (.push b) s = .next t ∧
      t = answered 0x00 { s with ibuf := t.ibuf, ilen := t.ilen } ∧
      t.ilen.toNat = s.ilen.toNat + 1 ∧
      readMem t.ibuf s.ilen.toNat = some b ∧
      ∀ a, a ≠ s.ilen.toNat → readMem t.ibuf a = readMem s.ibuf a) ∧
    (s.ilen.toNat = 32 → exec (.push b) s = .next (answered 0x00 { s with ilen := 33 })) ∧
    (32 < s.ilen.toNat → exec (.push b) s = .next (answered 0x00 s))

/-! ## The Padder -/

/-- 41_padder R101 to R105: the cases of the reference function `pad`, position by
position, with the two XOR edits of R102. -/
def Obligations.PadFollowsItsCases : Prop :=
  (∀ (input : List Byte) (t : Nat), 0 < t → input.length < t →
    ∃ out, pad input t = .ok out ∧ out.length = t ∧
      (∀ j, j < input.length → out[j]? = input[j]?) ∧
      ∀ j, input.length ≤ j → j < t → out[j]? = some
        (((0x00 : Byte) ^^^ (if j = input.length then 0x80 else 0x00))
          ^^^ (if j + 1 = t then 0x01 else 0x00))) ∧
  (∀ (input : List Byte) (t : Nat), 0 < t → input.length = t → pad input t = .ok input) ∧
  (∀ (input : List Byte) (t : Nat), 0 < t → input.length + 1 = t →
    pad input t = .ok (input ++ [0x81])) ∧
  (∀ (input : List Byte) (t : Nat), 0 < t → t < input.length →
    pad input t = .error .inputTooLong) ∧
  pad [] 1 = .ok [0x81]

/-- The closed form of the reference function `pad`: the spec's own inference from those
cases (41_padder R106, "Closed form [derived: from rules R101 to R105]"). -/
def Obligations.PadHasTheClosedForm : Prop :=
  ∀ (input : List Byte) (t : Nat), 0 < t →
    if input.length + 2 ≤ t then
      pad input t = .ok (input ++ [0x80] ++ List.replicate (t - input.length - 2) 0x00 ++ [0x01])
    else if input.length + 1 = t then pad input t = .ok (input ++ [0x81])
    else if input.length = t then pad input t = .ok input
    else pad input t = .error .inputTooLong

/-- The collisions of `pad`, and that there are no others: the spec's own inference
(41_padder R112, "`pad(., T)` is not injective [derived: from rule R106]"). -/
def Obligations.PadCollidesOnlyAtTheTargetLength : Prop :=
  ∀ t : Nat, 0 < t →
    (∀ x : List Byte, x.length + 1 = t →
      pad x t = .ok (x ++ [0x81]) ∧ pad (x ++ [0x81]) t = .ok (x ++ [0x81])) ∧
    (∀ x y : List Byte, x.length ≤ t → pad x t = .ok y → pad y t = .ok y) ∧
    (∀ x y : List Byte, x.length ≤ t → y.length ≤ t → x ≠ y → pad x t = pad y t →
      (x.length = t ∧ y.length < t) ∨ (y.length = t ∧ x.length < t))

/-- 41_padder R107: `PAD16`, every cell of `OBUF` and the fault. The padded bytes are
written in the closed form of R106; an undefined cell is "no value" (10_state R36). -/
def Obligations.Pad16PadsTheInput : Prop :=
  decode 0x0310 = .ok .pad16 ∧
  ∀ s : State, s.EngineInv → s.fcode = 0x00 →
    if 16 < s.ilen.toNat then exec .pad16 s = .next (faulted 0x01 s)
    else ∃ t, exec .pad16 s = .next t ∧
      t = answered 0x00 { s with obuf := t.obuf, olen := 16 } ∧
      ∀ j, readMem t.obuf j = paddedCell s.ilen.toNat 16 (readMem s.ibuf) j

/-- 41_padder R108: `PAD32`, every cell of `OBUF` and the fault, as for `PAD16`. -/
def Obligations.Pad32PadsTheInput : Prop :=
  decode 0x0320 = .ok .pad32 ∧
  ∀ s : State, s.EngineInv → s.fcode = 0x00 →
    if 32 < s.ilen.toNat then exec .pad32 s = .next (faulted 0x01 s)
    else ∃ t, exec .pad32 s = .next t ∧
      t = answered 0x00 { s with obuf := t.obuf, olen := 32 } ∧
      ∀ j, readMem t.obuf j = paddedCell s.ilen.toNat 32 (readMem s.ibuf) j

/-! ## The constant formatter -/

/-- 42_formatter R121: the two sums, that each order is a bijection between 8-byte
sequences and 64-bit values, and the order this hardware uses. -/
def Obligations.Word64IsThePositionalSum : Prop :=
  Config.wordOrder = .le ∧
  (∀ b : List Byte, b.length = 8 →
    (word64 b .le).toNat = ((List.range 8).map fun i => (b.getD i 0).toNat * 256 ^ i).sum ∧
    (word64 b .be).toNat =
      ((List.range 8).map fun i => (b.getD i 0).toNat * 256 ^ (7 - i)).sum) ∧
  ∀ (o : WordOrder) (v : BitVec 64), ∃! b : List Byte, b.length = 8 ∧ word64 b o = v

/-- 42_formatter R124: the big-endian byte extractor. -/
def Obligations.ByteExtractorIsMostSignificantFirst : Prop :=
  ∀ v : BitVec 64,
    (∀ i, i < 8 → (beByte v i).toNat = v.toNat / 2 ^ (8 * (7 - i)) % 256) ∧
    (beBytes v).length = 8 ∧ (∀ i, i < 8 → (beBytes v)[i]? = some (beByte v i)) ∧
    word64 (beBytes v) .be = v

/-- 42_formatter R122: `LDV` under the value `LE` of `WORD_ORDER`, which this hardware
takes: byte `i` of the block is the `i`-th least significant byte of `VALUE`. -/
def Obligations.LdvLoadsTheFirstEightBytes : Prop :=
  decode 0x0400 = .ok .ldv ∧
  ∀ s : State, s.EngineInv → s.fcode = 0x00 →
    if s.ilen.toNat ≠ 16 then exec .ldv s = .next (faulted 0x03 s)
    else ∃ t, exec .ldv s = .next t ∧
      t = answered 0x00 { s with value := t.value, vv := true, tv := false, text := t.text } ∧
      (∀ a, readMem t.text a = none) ∧
      ∀ i, i < 8 → readMem s.ibuf i = some (t.value.extractLsb' (8 * i) 8)

/-- From 00_scope R6 and 42_formatter R122: `LDV` with `WORD_ORDER` as an argument. -/
def Obligations.LdvFollowsTheWordOrderParameter : Prop :=
  exec .ldv = (fun s => guarded s (loadValue Config.wordOrder)) ∧
  ∀ (o : WordOrder) (s : State), s.EngineInv → s.fcode = 0x00 → s.ilen.toNat = 16 →
    ∃ t, loadValue o s = .next t ∧
      ∀ i, i < 8 → readMem s.ibuf i = some (t.value.extractLsb'
        (match o with | .le => 8 * i | .be => 56 - 8 * i) 8)

/-- 42_formatter R125, R126: the eighteen character codes of a value. -/
def Obligations.TextHasPrefixAndSixteenDigits : Prop :=
  (∀ d : BitVec 4, (hexdigit d).toNat =
    if d.toNat ≤ 9 then 0x30 + d.toNat else 0x61 + (d.toNat - 10)) ∧
  ∀ v : BitVec 64, (textOf v).length = 18 ∧ (textOf v)[0]? = some 0x30 ∧
    (textOf v)[1]? = some 0x78 ∧
    ∀ k, k < 16 → (textOf v)[2 + k]? = some (hexdigit (v.extractLsb' (60 - 4 * k) 4))

/-- From 42_formatter R128 items 1 and 2: `text_of` is injective and writes lowercase
digits only. -/
def Obligations.TextDeterminesTheValue : Prop :=
  (∀ v w : BitVec 64, textOf v = textOf w → v = w) ∧
  ∀ (v : BitVec 64) (c : Byte), c ∈ textOf v →
    (0x30 ≤ c.toNat ∧ c.toNat ≤ 0x39) ∨ (0x61 ≤ c.toNat ∧ c.toNat ≤ 0x66) ∨ c = 0x78

/-- 42_formatter R127: `FMT`, every cell of `TEXT` and the fault. -/
def Obligations.FmtWritesTheTextOfTheValue : Prop :=
  decode 0x0500 = .ok .fmt ∧
  ∀ s : State, s.fcode = 0x00 →
    if s.vv = false then exec .fmt s = .next (faulted 0x04 s)
    else ∃ t, exec .fmt s = .next t ∧
      t = answered 0x00 { s with text := t.text, tv := true } ∧
      (∀ i, i < 18 → ∃ c, (textOf s.value)[i]? = some c ∧ readMem t.text i = some c) ∧
      ∀ a, 18 ≤ a → readMem t.text a = none

/-! ## Read-out -/

/-- 43_readout R140. -/
def Obligations.RdoReturnsAByteOfTheOutput : Prop :=
  ∀ (i : Byte) (s : State), s.EngineInv → s.fcode = 0x00 →
    decode (0x0800 ||| i.setWidth 16) = .ok (.rdo i) ∧
    if s.olen.toNat = 0 then exec (.rdo i) s = .next (faulted 0x04 s)
    else if s.olen.toNat ≤ i.toNat then exec (.rdo i) s = .next (faulted 0x05 s)
    else ∃ b, readMem s.obuf i.toNat = some b ∧ exec (.rdo i) s = .next (answered b s)

/-- 43_readout R141. -/
def Obligations.RdvReturnsAByteOfTheValue : Prop :=
  ∀ (i : Byte) (s : State), s.fcode = 0x00 →
    decode (0x0900 ||| i.setWidth 16) = .ok (.rdv i) ∧
    if s.vv = false then exec (.rdv i) s = .next (faulted 0x04 s)
    else if 8 ≤ i.toNat then exec (.rdv i) s = .next (faulted 0x05 s)
    else exec (.rdv i) s =
      .next (answered (BitVec.ofNat 8 (s.value.toNat / 256 ^ (7 - i.toNat))) s)

/-- 43_readout R142. -/
def Obligations.RdtReturnsACharacterOfTheText : Prop :=
  ∀ (i : Byte) (s : State), s.EngineInv → s.fcode = 0x00 →
    decode (0x0A00 ||| i.setWidth 16) = .ok (.rdt i) ∧
    if s.tv = false then exec (.rdt i) s = .next (faulted 0x04 s)
    else if 18 ≤ i.toNat then exec (.rdt i) s = .next (faulted 0x05 s)
    else ∃ c, readMem s.text i.toNat = some c ∧ exec (.rdt i) s = .next (answered c s) ∧
      (i = 0 → c = 0x30) ∧ (i = 1 → c = 0x78)

/-- 43_readout R143: the `STATUS` byte, bit by bit, and the combinations that occur. -/
def Obligations.RdsReturnsTheStatusByte : Prop :=
  decode 0x0B00 = .ok .rds ∧
  ∀ s : State, s.fcode = 0x00 →
    ∃ d : Byte, exec .rds s = .next (answered d s) ∧
      d.getLsbD 0 = decide (s.olen.toNat ≠ 0) ∧ d.getLsbD 1 = decide (s.olen.toNat = 32) ∧
      d.getLsbD 2 = s.vv ∧ d.getLsbD 3 = s.tv ∧ d.getLsbD 4 = decide (s.ilen.toNat = 33) ∧
      d.getLsbD 5 = false ∧ d.getLsbD 6 = false ∧ d.getLsbD 7 = false ∧
      (d.getLsbD 1 = true → d.getLsbD 0 = true) ∧
      (s.EngineInv → d.getLsbD 3 = true → d.getLsbD 2 = true)

/-- 43_readout R144, R145: the two length registers, zero-extended. -/
def Obligations.RdilAndRdolReturnTheLengths : Prop :=
  decode 0x0B01 = .ok .rdil ∧ decode 0x0B02 = .ok .rdol ∧
  ∀ s : State, s.fcode = 0x00 →
    exec .rdil s = .next (answered (BitVec.ofNat 8 s.ilen.toNat) s) ∧
    exec .rdol s = .next (answered (BitVec.ofNat 8 s.olen.toNat) s)

/-! ## The whole machine -/

/-- 20_memory R60, with the writers of R51: which command may change which storage. -/
def Obligations.StoragesAreWrittenByTheirCommandsOnly : Prop :=
  ∀ (i : Instr) (s t : State), exec i s = .next t →
    (t.ibuf ≠ s.ibuf ∨ t.ilen ≠ s.ilen → i = .clr ∨ ∃ b, i = .push b) ∧
    (t.obuf ≠ s.obuf ∨ t.olen ≠ s.olen → i = .pad16 ∨ i = .pad32) ∧
    (t.value ≠ s.value ∨ t.vv ≠ s.vv → i = .ldv) ∧
    (t.text ≠ s.text ∨ t.tv ≠ s.tv → i = .ldv ∨ i = .fmt)

/-- From 10_state R24, R26, R28, R31: what sets and what clears each flag. -/
def Obligations.FlagsAreSetAndClearedAsTheTableSays : Prop :=
  ∀ (i : Instr) (s t : State), exec i s = .next t →
    (s.vv = true → t.vv = true) ∧ (s.vv = false → t.vv = true → i = .ldv) ∧
    (s.tv = false → t.tv = true → i = .fmt) ∧ (s.tv = true → t.tv = false → i = .ldv) ∧
    (s.ov = true → t.ov = true) ∧
    (s.ov = false → t.ov = true → i = .pad16 ∨ i = .pad32) ∧
    (s.iovf = false → t.iovf = true → ∃ b, i = .push b ∧ s.ilen.toNat = 32) ∧
    (s.iovf = true → t.iovf = false → i = .clr)

/-- The spec's own inference (20_memory R59, "running one twice in a row leaves the same
state as running it once [derived: ...]"): reads change nothing and repeat; `CLR`, `PAD16`,
`PAD32`, `LDV`, `FMT` are idempotent when they succeed; `PUSH` appends. -/
def Obligations.CommandsAreIdempotentAsListed : Prop :=
  ∀ (i : Instr) (s t : State), exec i s = .next t → t.fcode = 0x00 →
    (returnsData i → ∃ d, t = answered d s ∧ exec i t = .next (answered d t)) ∧
    (i = .clr ∨ i = .pad16 ∨ i = .pad32 ∨ i = .ldv ∨ i = .fmt →
      exec i t = .next (answered 0x00 t)) ∧
    (∀ b, i = .push b → s.ilen.toNat < 33 → t.ilen.toNat = s.ilen.toNat + 1)

/-- The spec's own inference (40_input_stream R93, "The input abstraction [derived: ...]"):
the engine behaves as if it had been given the unbounded sequence of all bytes pushed since
reset or the last `CLR`. -/
def Obligations.EngineActsOnTheWholePushedSequence : Prop :=
  (∀ n, HoldsInput (State.resetAt n) []) ∧
  ∀ (s : State) (bs : List Byte), HoldsInput s bs → s.fcode = 0x00 →
    (∀ b, ∃ t, exec (.push b) s = .next t ∧ HoldsInput t (bs ++ [b])) ∧
    (∃ t, exec .clr s = .next t ∧ HoldsInput t []) ∧
    (∀ i t, exec i s = .next t → i ≠ .clr → (∀ b, i ≠ .push b) → HoldsInput t bs) ∧
    (match pad bs 16 with
      | .ok out => exec .pad16 s = .next (answered 0x00 { s with obuf := memOf out, olen := 16 })
      | .error _ => exec .pad16 s = .next (faulted 0x01 s)) ∧
    (match pad bs 32 with
      | .ok out => exec .pad32 s = .next (answered 0x00 { s with obuf := memOf out, olen := 32 })
      | .error _ => exec .pad32 s = .next (faulted 0x01 s)) ∧
    (if bs.length = 16 then
      exec .ldv s = .next (answered 0x00
        { s with value := word64 (bs.take 8) .le, vv := true, tv := false, text := [] })
     else exec .ldv s = .next (faulted 0x03 s)) ∧
    exec .rdil s = .next (answered (BitVec.ofNat 8 (min bs.length 33)) s)

/-- What the host obtains, for the padded output: the spec's own inference (43_readout
R146, "the `DATA` bytes in index order are exactly `pad(s, T)`"). -/
def Obligations.HostObtainsThePaddedInput : Prop :=
  ∀ (s : State) (bs : List Byte), HoldsInput s bs → s.fcode = 0x00 →
    (bs.length ≤ 16 → ∃ t out, exec .pad16 s = .next t ∧ pad bs 16 = .ok out ∧
      out.length = 16 ∧ ∀ i : Byte, i.toNat < 16 →
        ∃ b, out[i.toNat]? = some b ∧ exec (.rdo i) t = .next (answered b t)) ∧
    (bs.length ≤ 32 → ∃ t out, exec .pad32 s = .next t ∧ pad bs 32 = .ok out ∧
      out.length = 32 ∧ ∀ i : Byte, i.toNat < 32 →
        ∃ b, out[i.toNat]? = some b ∧ exec (.rdo i) t = .next (answered b t))

/-- What the host obtains, for a cipher block: the spec's own inference (43_readout R146),
with the word order of this hardware. -/
def Obligations.HostObtainsTheValueAndItsText : Prop :=
  ∀ (s : State) (blk : List Byte), HoldsInput s blk → s.fcode = 0x00 → blk.length = 16 →
    ∃ t u, exec .ldv s = .next t ∧ exec .fmt t = .next u ∧
      (∀ i : Byte, i.toNat < 8 → ∃ b, blk[7 - i.toNat]? = some b ∧
        exec (.rdv i) u = .next (answered b u)) ∧
      ∀ i : Byte, i.toNat < 18 → ∃ k, (textOf (word64 (blk.take 8) .le))[i.toNat]? = some k ∧
        exec (.rdt i) u = .next (answered k u)

/-- From 70_reset R190 and 93 U3: `VALUE` cannot be observed while `VV` is 0. Two states
that differ in nothing else answer every command alike and differ in nothing else after
it. -/
def Obligations.UndefinedValueIsNeverObserved : Prop :=
  ∀ (w : Word) (s t : State), sameDefined s t → ∀ s', transact w s = .next s' →
    ∃ t', transact w t = .next t' ∧ t'.responses = s'.responses ∧ sameDefined s' t'

/-! ## The ports -/

/-- From 10_state R37: a command is accepted at the handshake and enters in no other way,
and `cmd_ready` is 0 from the accepting edge until the edge that delivers its response.
From 70_reset R192: an engine held by reset takes commands again; that it takes one edge
without reset to be ready is the model's choice (assumption log 6). -/
def Obligations.PortsHoldOneCommandAtATime : Prop :=
  (∀ (inp : PortIn) (p : PortState), steady inp p = true → accepts inp p = true →
    ∃ q n, clockEdge inp p = .next q ∧ q.engine = p.engine ∧ 1 ≤ n ∧
      q.phase = .busy inp.cmdData n) ∧
  (∀ (inp : PortIn) (p : PortState), steady inp p = true → inp.rst = false →
    (p.phase = .held → ∃ q, clockEdge inp p = .next q ∧ q.engine = p.engine ∧
      q.phase = .idle ∧ (portOut q).cmdReady = true) ∧
    (p.phase = .idle → accepts inp p = false →
      ∃ q, clockEdge inp p = .next q ∧ q.engine = p.engine ∧ q.phase = .idle)) ∧
  (∀ (inp : PortIn) (p q : PortState) (w : Word) (n : Nat), clockEdge inp p = .next q →
    q.phase = .busy w n → (∃ m, p.phase = .busy w m ∧ n < m) ∨
      (accepts inp p = true ∧ w = inp.cmdData)) ∧
  (∀ (inp : PortIn) (p q : PortState), inp.rst = false → clockEdge inp p = .next q →
    (accepts inp p = true → (portOut q).cmdReady = false) ∧
    (delivers inp p = true → q.engine = p.engine ∧ q.phase = .idle ∧
      (portOut q).cmdReady = true) ∧
    ((portOut p).cmdReady = false → p.phase ≠ .held → delivers inp p = false →
      (portOut q).cmdReady = false) ∧
    ((portOut p).rspValid = true → delivers inp p = false →
      q.engine = p.engine ∧ q.phase = p.phase ∧ portOut q = portOut p))

/-- From 70_reset R195 and 93 U14: a host that changes the word it presents before it is
accepted has no move; every other host has one at every edge. -/
def Obligations.OnlyASteadyHostHasAMove : Prop :=
  (∀ (inp : PortIn) (p q : PortState), clockEdge inp p = .next q → inp.cmdValid = true →
    accepts inp p = false → ∀ next : PortIn, next.cmdValid = true →
      next.cmdData ≠ inp.cmdData → clockEdge next q = .refused .unsteadyCommand) ∧
  (∀ (inp : PortIn) (p q : PortState), clockEdge inp p = .next q → q.engine.EngineInv →
    (inp.cmdValid = false ∨ accepts inp p = true) →
    ∀ next : PortIn, ∃ r, clockEdge next q = .next r) ∧
  (∀ (inp : PortIn) (p q : PortState), clockEdge inp p = .next q → q.engine.EngineInv →
    ∀ next : PortIn, next.cmdValid = false ∨ next.cmdData = inp.cmdData →
      ∃ r, clockEdge next q = .next r)

/-- From 70_reset R191: the reset event at a clock edge, where a command inside is abandoned
and gets no response, and between two commands, and that nothing else clears `FCODE`. The
model's choices: a host that breaks its duty on `cmd_data` (R195, 93 U14) has no move with
`rst` high either, where R191 speaks of every edge (assumption log 7), and the rest of the
host's list stays (assumption log 4). -/
def Obligations.ResetEdgeHasPriority : Prop :=
  (∀ (inp : PortIn) (p : PortState), inp.rst = true → accepts inp p = false ∧
    (steady inp p = true → ∃ q, clockEdge inp p = .next q ∧ isResetState q.engine ∧
      q.engine.responses.length ≤ p.engine.responses.length ∧
      (∀ w n, q.phase ≠ .busy w n) ∧
      (portOut q).cmdReady = false ∧ (portOut q).rspValid = false)) ∧
  (∀ (s : State) (rest : List HostEvent), s.pending = .reset :: rest →
    ∃ t, step s = .next t ∧ isResetState t ∧ t.pending = rest) ∧
  (∀ (inp : PortIn) (p q : PortState), inp.rst = false → p.engine.fcode ≠ 0x00 →
    clockEdge inp p = .next q → q.engine.fcode = p.engine.fcode) ∧
  (∀ s t : State, s.fcode ≠ 0x00 → step s = .next t → t.fcode ≠ s.fcode →
    ∃ rest, s.pending = .reset :: rest)

/-- From 70_reset R201, R202: an accepted command is answered after exactly `LAT` further
edges, whatever the ports carry meanwhile but reset and a word that the host changes (R195,
93 U14). `LAT` is a free value (assumption log 6). -/
def Obligations.AcceptedCommandIsAnsweredWithinItsLatency : Prop :=
  ∀ (p : PortState) (inp : PortIn) (later : List PortIn), p.engine.EngineInv →
    accepts inp p = true → steady inp p = true → (∀ x ∈ later, x.rst = false) →
    keepsWord later → later.length = latencyOf inp p →
    ∃ t q, transact inp.cmdData p.engine = .next t ∧
      clockEdges (inp :: later) p = .next q ∧ q.engine = t ∧
      portOut q = ⟨false, true, t.responses.getLast?⟩ ∧
      t.responses.getLast?.isSome = true

/-- From 10_state R37 and 20_memory R58: seen at the clock, the engine's state changes by
whole transactions and resets only, each a step of the transaction machine. That the whole
effect lands on the edge that raises `rsp_valid` is the model's choice (assumption log 6). -/
def Obligations.ClockEdgesRefineTransactions : Prop :=
  ∀ (inp : PortIn) (p q : PortState), clockEdge inp p = .next q →
    q.engine = p.engine ∨
    (∃ w n, p.phase = .busy w n ∧ q.phase = .answering ∧
      step { p.engine with pending := .command w :: p.engine.pending } = .next q.engine) ∨
    (inp.rst = true ∧
      step { p.engine with pending := .reset :: p.engine.pending } = .next q.engine)

/-! ## The host's notation and the derive sequence -/

/-- From 30_encoding R80: the line of a command assembles to that command. -/
def Obligations.SourceLineAssemblesToItsCommand : Prop :=
  ∀ i : Instr, assembleLine (sourceLine i) = some [i]

/-- From 30_encoding R81: what each pseudo-instruction expands to, and which lines there
are not. -/
def Obligations.PseudoInstructionsExpandAsListed : Prop :=
  (∀ bs : List Byte, expand (.pushb bs) = some (bs.map .push)) ∧
  (∀ cs : List Char, (∀ c ∈ cs, 0x20 ≤ c.toNat ∧ c.toNat ≤ 0x7E) →
    expand (.pushs cs) = some (cs.map fun c => .push (BitVec.ofNat 8 c.toNat))) ∧
  (∀ cs : List Char, (∃ c ∈ cs, c.toNat < 0x20 ∨ 0x7E < c.toNat) →
    expand (.pushs cs) = none) ∧
  (∀ n : Nat, n = 16 ∨ n = 32 → ∃ l, expand (.rdoall n) = some l ∧ l.length = n ∧
    ∀ i, i < n → l[i]? = some (.rdo (BitVec.ofNat 8 i))) ∧
  (∀ n : Nat, n ≠ 16 → n ≠ 32 → expand (.rdoall n) = none) ∧
  (∃ l, expand .rdvall = some l ∧ l.length = 8 ∧
    ∀ i, i < 8 → l[i]? = some (.rdv (BitVec.ofNat 8 i))) ∧
  (∃ l, expand .rdtall = some l ∧ l.length = 18 ∧
    ∀ i, i < 18 → l[i]? = some (.rdt (BitVec.ofNat 8 i)))

/-- From 44_derive_sequence R163, R164: the failures of `derive` and its result, for every
`ENCODE`, cipher and word order. That `InvalidEncoding` of either string comes before any
`InputTooLong` is R164's own inference ("[derived: from the order of the steps in §4.2]";
assumption log 13). -/
def Obligations.DeriveFailsExactlyAsTheSourceSays : Prop :=
  ∀ (enc : List Char → Option (List Byte)) (cipher : Cipher)
    (o : WordOrder) (key label : List Char),
    ((enc key = none ∨ enc label = none) →
      derive enc cipher o key label = .error .invalidEncoding) ∧
    ∀ k l, enc key = some k → enc label = some l →
      if 32 < k.length ∨ 16 < l.length then
        derive enc cipher o key label = .error .inputTooLong
      else ∃ pk pl blk, pad k 32 = .ok pk ∧ pad l 16 = .ok pl ∧ pk.length = 32 ∧
        pl.length = 16 ∧ cipher.encrypt pk pl = blk ∧ blk.length = 16 ∧
        derive enc cipher o key label =
          .ok ⟨word64 (blk.take 8) o, textOf (word64 (blk.take 8) o)⟩

/-- What the host obtains from the engine with the derive sequence (44_derive_sequence R163,
R164): `derive`, from any running engine that holds no input, as after reset or `CLR`, for
every `ENCODE` and cipher. That the result is this one is R163's own inference ("[derived:
from `43_readout.md` rule R146]"); that `InvalidEncoding` of either string comes before any
`InputTooLong` is R164's (assumption log 13). -/
def Obligations.DeriveSequenceObtainsDerive : Prop :=
  (∀ n, HoldsInput (State.resetAt n) [] ∧ (State.resetAt n).fcode = 0x00) ∧
  ∀ (enc : List Char → Option (List Byte)) (cipher : Cipher) (key label : List Char)
    (s : State), HoldsInput s [] → s.fcode = 0x00 →
    match derive enc cipher Config.wordOrder key label with
    | .ok c => ∃ t, deriveOnEngine enc cipher key label s = .ok (c, t) ∧ t.fcode = 0x00
    | .error .invalidEncoding =>
      deriveOnEngine enc cipher key label s = .error .invalidEncoding
    | .error .inputTooLong => ∃ t,
      deriveOnEngine enc cipher key label s = .error (.response 0x01 t) ∧ t.fcode = 0x01
end

