-- ==== Sys2Proof/Laws/Decode.lean ====
section
/-! SUPPORT. The decoder in terms of the word as a number: which numbers select which
row of the opcode map. Later proofs cite `decode_eq` and never walk the table. -/

namespace Sys2Proof

/-- A word is `OP * 256 + ARG` (30_encoding R70). -/
theorem append_toNat (a b : Byte) : (a ++ b : Word).toNat = a.toNat * 256 + b.toNat := by
  rw [BitVec.toNat_append, Nat.shiftLeft_eq]
  have h := Nat.two_pow_add_eq_or_of_lt b.isLt a.toNat
  rw [Nat.mul_comm, ← h]

theorem opField_toNat (w : Word) : (opField w).toNat = w.toNat / 256 := by
  have h := w.isLt
  simp only [opField, BitVec.extractLsb'_toNat, Nat.shiftRight_eq_div_pow]
  omega

theorem argField_toNat (w : Word) : (argField w).toNat = w.toNat % 256 := by
  simp [argField, BitVec.extractLsb'_toNat]

/-- A word is its two fields. -/
theorem fields_append (w : Word) : (opField w ++ argField w : Word) = w := by
  apply BitVec.eq_of_toNat_eq
  rw [append_toNat, opField_toNat, argField_toNat]
  omega

theorem and_allOnes16 (w : Word) : w &&& 0xFFFF = w :=
  BitVec.and_allOnes (w := 16)

/-- The mask of the `OP` field. -/
theorem and_opMask (w : Word) : (w &&& 0xFF00).toNat = w.toNat / 256 * 256 := by
  have e : (0xFF00 : Word) = (0xFF : Byte) ++ (0x00 : Byte) := by decide
  have h1 : opField w &&& 0xFF = opField w := BitVec.and_allOnes
  have h2 : argField w &&& 0x00 = 0x00 := BitVec.and_zero
  conv_lhs => rw [← fields_append w]
  rw [e, BitVec.and_append, h1, h2, append_toNat, opField_toNat]
  simp

/-- A row without operand selects one word. -/
theorem selects_word (p : Word) (f : Byte → Instr) (w : Word) :
    OpRow.selects ⟨p, 0xFFFF, f⟩ w = decide (w.toNat = p.toNat) := by
  simp only [OpRow.selects, and_allOnes16]
  by_cases h : w = p
  · simp [h]
  · simp [h, BitVec.toNat_inj]

/-- A row with an operand selects the 256 words of its `OP`. -/
theorem selects_op (p : Word) (f : Byte → Instr) (w : Word) (k : Nat)
    (hp : p.toNat = k * 256) :
    OpRow.selects ⟨p, 0xFF00, f⟩ w = decide (w.toNat / 256 = k) := by
  simp only [OpRow.selects, beq_eq_decide, ← BitVec.toNat_inj, and_opMask, hp]
  congr 1
  simp only [eq_iff_iff]
  omega

/-- Everything the decoder can do with a table: the command of a row that the word
selects, or a rejection by name when it selects none. -/
theorem decodeFrom_cases (rows : List OpRow) (w : Word) :
    (∃ r ∈ rows, r.selects w = true ∧ decodeFrom rows w = .ok (r.build (argField w))) ∨
    ((∀ r ∈ rows, r.selects w = false) ∧ decodeFrom rows w = .error (rejectName w)) := by
  induction rows with
  | nil => exact .inr ⟨by simp, rfl⟩
  | cons r rows ih =>
    cases hr : r.selects w with
    | true => exact .inl ⟨r, by simp, hr, by simp [decodeFrom, hr]⟩
    | false =>
      have e : decodeFrom (r :: rows) w = decodeFrom rows w := by simp [decodeFrom, hr]
      rw [e]
      rcases ih with ⟨q, hq, hs, hd⟩ | ⟨hn, hd⟩
      · exact .inl ⟨q, by simp [hq], hs, hd⟩
      · exact .inr ⟨by simpa [hr] using hn, hd⟩

/-- The decoder by the word's number, one line per row of the opcode map. -/
theorem decode_eq (w : Word) :
    decode w =
      if w.toNat = 0x0000 then .ok .nop
      else if w.toNat = 0x0100 then .ok .clr
      else if w.toNat / 256 = 0x02 then .ok (.push (argField w))
      else if w.toNat = 0x0310 then .ok .pad16
      else if w.toNat = 0x0320 then .ok .pad32
      else if w.toNat = 0x0400 then .ok .ldv
      else if w.toNat = 0x0500 then .ok .fmt
      else if w.toNat / 256 = 0x08 then .ok (.rdo (argField w))
      else if w.toNat / 256 = 0x09 then .ok (.rdv (argField w))
      else if w.toNat / 256 = 0x0A then .ok (.rdt (argField w))
      else if w.toNat = 0x0B00 then .ok .rds
      else if w.toNat = 0x0B01 then .ok .rdil
      else if w.toNat = 0x0B02 then .ok .rdol
      else .error (rejectName w) := by
  have h2 := fun f => selects_op 0x0200 f w 0x02 (by decide)
  have h8 := fun f => selects_op 0x0800 f w 0x08 (by decide)
  have h9 := fun f => selects_op 0x0900 f w 0x09 (by decide)
  have hA := fun f => selects_op 0x0A00 f w 0x0A (by decide)
  simp only [decode, opcodeMap, List.cons_append, List.nil_append, decodeFrom,
    selects_word, h2, h8, h9, hA, decide_eq_true_eq]
  rfl

end Sys2Proof
end

