-- ==== Sys2Proof/Laws/Memory.lean ====
section
/-! SUPPORT. The laws of a buffer's contents: a read after a write, the cells of a
written sequence, and that every operation keeps the canonical form. -/

namespace Sys2Proof.Machine

@[simp] theorem readMem_nil (a : Nat) : readMem [] a = none := rfl

theorem readMem_writeMem_same (m : Memory) (a : Nat) (b : Byte) :
    readMem (writeMem m a b) a = some b := by
  induction m with
  | nil => simp [writeMem, readMem]
  | cons c m ih =>
    obtain ⟨k, x⟩ := c
    by_cases h : a < k
    · simp [writeMem, readMem, h]
    · by_cases h' : a = k
      · simp [writeMem, readMem, h']
      · simp [writeMem, readMem, h, h', ih, Ne.symm h']

theorem readMem_writeMem_other (m : Memory) (a c : Nat) (b : Byte) (hc : c ≠ a) :
    readMem (writeMem m a b) c = readMem m c := by
  induction m with
  | nil => simp [writeMem, readMem, Ne.symm hc]
  | cons p m ih =>
    obtain ⟨k, x⟩ := p
    by_cases h : a < k
    · simp [writeMem, readMem, h, Ne.symm hc]
    · by_cases h' : a = k
      · subst h'
        simp [writeMem, readMem, Ne.symm hc]
      · by_cases hk : k = c
        · subst hk
          simp [writeMem, readMem, h, h']
        · simp [writeMem, readMem, h, h', hk, ih]

/-- The addresses after a write are the old ones and the written one. -/
theorem mem_writeMem_addrs (m : Memory) (a : Nat) (b : Byte) (x : Nat) :
    x ∈ (writeMem m a b).map Prod.fst ↔ x = a ∨ x ∈ m.map Prod.fst := by
  induction m with
  | nil => simp [writeMem]
  | cons p m ih =>
    obtain ⟨k, y⟩ := p
    by_cases h : a < k
    · simp [writeMem, h]
    · by_cases h' : a = k
      · simp [writeMem, h']
      · simp only [writeMem, h, h', if_false, List.map_cons, List.mem_cons, ih]
        tauto

/-- A write keeps the canonical form. -/
theorem writeMem_wf (m : Memory) (a : Nat) (b : Byte) (h : Memory.wf m) :
    Memory.wf (writeMem m a b) := by
  induction m with
  | nil => simp [writeMem, Memory.wf]
  | cons p m ih =>
    obtain ⟨k, y⟩ := p
    simp only [Memory.wf, List.map_cons, List.pairwise_cons] at h ih ⊢
    obtain ⟨hk, hm⟩ := h
    by_cases hlt : a < k
    · simp only [writeMem, hlt, if_true, List.map_cons, List.pairwise_cons]
      refine ⟨?_, hk, hm⟩
      intro x hx
      rcases List.mem_cons.mp hx with rfl | hx
      · exact hlt
      · exact lt_trans hlt (hk x hx)
    · by_cases heq : a = k
      · subst heq
        simp only [writeMem, if_true, lt_irrefl, if_false, List.map_cons, List.pairwise_cons]
        exact ⟨hk, hm⟩
      · simp only [writeMem, hlt, heq, if_false, List.map_cons, List.pairwise_cons]
        refine ⟨?_, ih hm⟩
        intro x hx
        rcases (mem_writeMem_addrs m a b x).mp hx with rfl | hx
        · omega
        · exact hk x hx

/-- The addresses of a stored sequence. -/
theorem memFrom_addrs (k : Nat) (bs : List Byte) :
    (memFrom k bs).map Prod.fst = List.range' k bs.length := by
  induction bs generalizing k with
  | nil => rfl
  | cons b bs ih => simp [memFrom, ih, List.range'_succ]

theorem memOf_addrs (bs : List Byte) :
    (memOf bs).map Prod.fst = List.range bs.length := by
  rw [memOf, memFrom_addrs, List.range_eq_range']

/-- The bytes of a stored sequence are the sequence. -/
theorem memFrom_bytes (k : Nat) (bs : List Byte) : (memFrom k bs).map Prod.snd = bs := by
  induction bs generalizing k with
  | nil => rfl
  | cons b bs ih => simp [memFrom, ih]

/-- Cell `i` of a stored sequence holds its byte at position `i`. -/
theorem readMem_memFrom (k : Nat) (bs : List Byte) (a : Nat) :
    readMem (memFrom k bs) a = if k ≤ a then bs[a - k]? else none := by
  induction bs generalizing k with
  | nil => simp [memFrom]
  | cons b bs ih =>
    simp only [memFrom, readMem, ih]
    by_cases h : k = a
    · subst h; simp
    · by_cases h2 : k + 1 ≤ a
      · have : a - k = (a - (k + 1)) + 1 := by omega
        rw [if_neg h, if_pos h2, if_pos (by omega), this, List.getElem?_cons_succ]
      · rw [if_neg h, if_neg h2, if_neg (by omega)]

theorem readMem_memOf (bs : List Byte) (a : Nat) : readMem (memOf bs) a = bs[a]? := by
  simp [memOf, readMem_memFrom]

/-- A stored sequence is in canonical form. -/
theorem memOf_wf (bs : List Byte) : Memory.wf (memOf bs) := by
  rw [Memory.wf, memOf_addrs]
  exact List.pairwise_lt_range

/-- The buffers after reset are in canonical form. -/
theorem resetAt_wf (n : Nat) (sp : Space) : Memory.wf ((State.resetAt n).mem sp) := by
  cases sp <;> exact List.Pairwise.nil

/-- Writing the cell just past a stored sequence appends a byte to it. -/
theorem writeMem_memFrom_end (k : Nat) (bs : List Byte) (b : Byte) :
    writeMem (memFrom k bs) (k + bs.length) b = memFrom k (bs ++ [b]) := by
  induction bs generalizing k with
  | nil => simp [memFrom, writeMem]
  | cons c bs ih =>
    have e : k + (c :: bs).length = k + 1 + bs.length := by simp; omega
    rw [e]
    simp only [memFrom, List.cons_append, writeMem]
    rw [if_neg (by omega), if_neg (by omega), ih]

theorem writeMem_memOf_end (bs : List Byte) (b : Byte) :
    writeMem (memOf bs) bs.length b = memOf (bs ++ [b]) := by
  simpa [memOf] using writeMem_memFrom_end 0 bs b

/-- A buffer whose addresses are `k, k+1, ..` is its bytes stored from `k`. -/
theorem eq_memFrom_of_addrs (k : Nat) (m : Memory)
    (h : m.map Prod.fst = List.range' k m.length) : m = memFrom k (m.map Prod.snd) := by
  induction m generalizing k with
  | nil => rfl
  | cons p m ih =>
    obtain ⟨a, b⟩ := p
    simp only [List.map_cons, List.length_cons, List.range'_succ, List.cons.injEq] at h
    simp only [List.map_cons, memFrom, ← ih (k + 1) h.2, h.1]

/-- A buffer whose defined cells are exactly `0 .. n-1` is a stored sequence of n bytes. -/
theorem eq_memOf_of_addrs (n : Nat) (m : Memory) (h : m.map Prod.fst = List.range n) :
    m = memOf (m.map Prod.snd) ∧ (m.map Prod.snd).length = n := by
  have hl : m.length = n := by simpa using congrArg List.length h
  refine ⟨eq_memFrom_of_addrs 0 m ?_, by simpa using hl⟩
  rw [h, hl, List.range_eq_range']

end Sys2Proof.Machine
end

