-- ==== Sys2Proof/Laws/State.lean ====
section
/-! SUPPORT. What each named update of the state does to each field, one lemma per field
per update, and the fields of the state after reset. No later proof unfolds an update. -/

namespace Sys2Proof.Machine

variable (s : State)

@[simp] theorem State.clearInput_ibuf : (s.clearInput).ibuf = [] := rfl
@[simp] theorem State.clearInput_ilen : (s.clearInput).ilen = 0 := rfl
@[simp] theorem State.clearInput_obuf : (s.clearInput).obuf = s.obuf := rfl
@[simp] theorem State.clearInput_olen : (s.clearInput).olen = s.olen := rfl
@[simp] theorem State.clearInput_value : (s.clearInput).value = s.value := rfl
@[simp] theorem State.clearInput_vv : (s.clearInput).vv = s.vv := rfl
@[simp] theorem State.clearInput_text : (s.clearInput).text = s.text := rfl
@[simp] theorem State.clearInput_tv : (s.clearInput).tv = s.tv := rfl
@[simp] theorem State.clearInput_fcode : (s.clearInput).fcode = s.fcode := rfl
@[simp] theorem State.clearInput_pending : (s.clearInput).pending = s.pending := rfl
@[simp] theorem State.clearInput_responses : (s.clearInput).responses = s.responses := rfl
@[simp] theorem State.clearInput_pc : (s.clearInput).pc = s.pc := rfl
@[simp] theorem State.clearInput_resets : (s.clearInput).resets = s.resets := rfl

@[simp] theorem State.storeInput_ibuf (b : Byte) : (s.storeInput b).ibuf = writeMem s.ibuf s.ilen.toNat b := rfl
@[simp] theorem State.storeInput_ilen (b : Byte) : (s.storeInput b).ilen = s.ilen + 1 := rfl
@[simp] theorem State.storeInput_obuf (b : Byte) : (s.storeInput b).obuf = s.obuf := rfl
@[simp] theorem State.storeInput_olen (b : Byte) : (s.storeInput b).olen = s.olen := rfl
@[simp] theorem State.storeInput_value (b : Byte) : (s.storeInput b).value = s.value := rfl
@[simp] theorem State.storeInput_vv (b : Byte) : (s.storeInput b).vv = s.vv := rfl
@[simp] theorem State.storeInput_text (b : Byte) : (s.storeInput b).text = s.text := rfl
@[simp] theorem State.storeInput_tv (b : Byte) : (s.storeInput b).tv = s.tv := rfl
@[simp] theorem State.storeInput_fcode (b : Byte) : (s.storeInput b).fcode = s.fcode := rfl
@[simp] theorem State.storeInput_pending (b : Byte) : (s.storeInput b).pending = s.pending := rfl
@[simp] theorem State.storeInput_responses (b : Byte) : (s.storeInput b).responses = s.responses := rfl
@[simp] theorem State.storeInput_pc (b : Byte) : (s.storeInput b).pc = s.pc := rfl
@[simp] theorem State.storeInput_resets (b : Byte) : (s.storeInput b).resets = s.resets := rfl

@[simp] theorem State.saturateInput_ibuf : (s.saturateInput).ibuf = s.ibuf := rfl
@[simp] theorem State.saturateInput_ilen : (s.saturateInput).ilen = BitVec.ofNat 6 Config.ilenSat := rfl
@[simp] theorem State.saturateInput_obuf : (s.saturateInput).obuf = s.obuf := rfl
@[simp] theorem State.saturateInput_olen : (s.saturateInput).olen = s.olen := rfl
@[simp] theorem State.saturateInput_value : (s.saturateInput).value = s.value := rfl
@[simp] theorem State.saturateInput_vv : (s.saturateInput).vv = s.vv := rfl
@[simp] theorem State.saturateInput_text : (s.saturateInput).text = s.text := rfl
@[simp] theorem State.saturateInput_tv : (s.saturateInput).tv = s.tv := rfl
@[simp] theorem State.saturateInput_fcode : (s.saturateInput).fcode = s.fcode := rfl
@[simp] theorem State.saturateInput_pending : (s.saturateInput).pending = s.pending := rfl
@[simp] theorem State.saturateInput_responses : (s.saturateInput).responses = s.responses := rfl
@[simp] theorem State.saturateInput_pc : (s.saturateInput).pc = s.pc := rfl
@[simp] theorem State.saturateInput_resets : (s.saturateInput).resets = s.resets := rfl

@[simp] theorem State.setOutput_ibuf (out : List Byte) (t : Nat) : (s.setOutput out t).ibuf = s.ibuf := rfl
@[simp] theorem State.setOutput_ilen (out : List Byte) (t : Nat) : (s.setOutput out t).ilen = s.ilen := rfl
@[simp] theorem State.setOutput_obuf (out : List Byte) (t : Nat) : (s.setOutput out t).obuf = memOf out := rfl
@[simp] theorem State.setOutput_olen (out : List Byte) (t : Nat) : (s.setOutput out t).olen = BitVec.ofNat 6 t := rfl
@[simp] theorem State.setOutput_value (out : List Byte) (t : Nat) : (s.setOutput out t).value = s.value := rfl
@[simp] theorem State.setOutput_vv (out : List Byte) (t : Nat) : (s.setOutput out t).vv = s.vv := rfl
@[simp] theorem State.setOutput_text (out : List Byte) (t : Nat) : (s.setOutput out t).text = s.text := rfl
@[simp] theorem State.setOutput_tv (out : List Byte) (t : Nat) : (s.setOutput out t).tv = s.tv := rfl
@[simp] theorem State.setOutput_fcode (out : List Byte) (t : Nat) : (s.setOutput out t).fcode = s.fcode := rfl
@[simp] theorem State.setOutput_pending (out : List Byte) (t : Nat) : (s.setOutput out t).pending = s.pending := rfl
@[simp] theorem State.setOutput_responses (out : List Byte) (t : Nat) : (s.setOutput out t).responses = s.responses := rfl
@[simp] theorem State.setOutput_pc (out : List Byte) (t : Nat) : (s.setOutput out t).pc = s.pc := rfl
@[simp] theorem State.setOutput_resets (out : List Byte) (t : Nat) : (s.setOutput out t).resets = s.resets := rfl

@[simp] theorem State.setValue_ibuf (v : BitVec 64) : (s.setValue v).ibuf = s.ibuf := rfl
@[simp] theorem State.setValue_ilen (v : BitVec 64) : (s.setValue v).ilen = s.ilen := rfl
@[simp] theorem State.setValue_obuf (v : BitVec 64) : (s.setValue v).obuf = s.obuf := rfl
@[simp] theorem State.setValue_olen (v : BitVec 64) : (s.setValue v).olen = s.olen := rfl
@[simp] theorem State.setValue_value (v : BitVec 64) : (s.setValue v).value = v := rfl
@[simp] theorem State.setValue_vv (v : BitVec 64) : (s.setValue v).vv = true := rfl
@[simp] theorem State.setValue_text (v : BitVec 64) : (s.setValue v).text = [] := rfl
@[simp] theorem State.setValue_tv (v : BitVec 64) : (s.setValue v).tv = false := rfl
@[simp] theorem State.setValue_fcode (v : BitVec 64) : (s.setValue v).fcode = s.fcode := rfl
@[simp] theorem State.setValue_pending (v : BitVec 64) : (s.setValue v).pending = s.pending := rfl
@[simp] theorem State.setValue_responses (v : BitVec 64) : (s.setValue v).responses = s.responses := rfl
@[simp] theorem State.setValue_pc (v : BitVec 64) : (s.setValue v).pc = s.pc := rfl
@[simp] theorem State.setValue_resets (v : BitVec 64) : (s.setValue v).resets = s.resets := rfl

@[simp] theorem State.setText_ibuf (t : List Byte) : (s.setText t).ibuf = s.ibuf := rfl
@[simp] theorem State.setText_ilen (t : List Byte) : (s.setText t).ilen = s.ilen := rfl
@[simp] theorem State.setText_obuf (t : List Byte) : (s.setText t).obuf = s.obuf := rfl
@[simp] theorem State.setText_olen (t : List Byte) : (s.setText t).olen = s.olen := rfl
@[simp] theorem State.setText_value (t : List Byte) : (s.setText t).value = s.value := rfl
@[simp] theorem State.setText_vv (t : List Byte) : (s.setText t).vv = s.vv := rfl
@[simp] theorem State.setText_text (t : List Byte) : (s.setText t).text = memOf t := rfl
@[simp] theorem State.setText_tv (t : List Byte) : (s.setText t).tv = true := rfl
@[simp] theorem State.setText_fcode (t : List Byte) : (s.setText t).fcode = s.fcode := rfl
@[simp] theorem State.setText_pending (t : List Byte) : (s.setText t).pending = s.pending := rfl
@[simp] theorem State.setText_responses (t : List Byte) : (s.setText t).responses = s.responses := rfl
@[simp] theorem State.setText_pc (t : List Byte) : (s.setText t).pc = s.pc := rfl
@[simp] theorem State.setText_resets (t : List Byte) : (s.setText t).resets = s.resets := rfl

@[simp] theorem State.setFcode_ibuf (c : Byte) : (s.setFcode c).ibuf = s.ibuf := rfl
@[simp] theorem State.setFcode_ilen (c : Byte) : (s.setFcode c).ilen = s.ilen := rfl
@[simp] theorem State.setFcode_obuf (c : Byte) : (s.setFcode c).obuf = s.obuf := rfl
@[simp] theorem State.setFcode_olen (c : Byte) : (s.setFcode c).olen = s.olen := rfl
@[simp] theorem State.setFcode_value (c : Byte) : (s.setFcode c).value = s.value := rfl
@[simp] theorem State.setFcode_vv (c : Byte) : (s.setFcode c).vv = s.vv := rfl
@[simp] theorem State.setFcode_text (c : Byte) : (s.setFcode c).text = s.text := rfl
@[simp] theorem State.setFcode_tv (c : Byte) : (s.setFcode c).tv = s.tv := rfl
@[simp] theorem State.setFcode_fcode (c : Byte) : (s.setFcode c).fcode = c := rfl
@[simp] theorem State.setFcode_pending (c : Byte) : (s.setFcode c).pending = s.pending := rfl
@[simp] theorem State.setFcode_responses (c : Byte) : (s.setFcode c).responses = s.responses := rfl
@[simp] theorem State.setFcode_pc (c : Byte) : (s.setFcode c).pc = s.pc := rfl
@[simp] theorem State.setFcode_resets (c : Byte) : (s.setFcode c).resets = s.resets := rfl

@[simp] theorem State.answer_ibuf (r : Word) : (s.answer r).ibuf = s.ibuf := rfl
@[simp] theorem State.answer_ilen (r : Word) : (s.answer r).ilen = s.ilen := rfl
@[simp] theorem State.answer_obuf (r : Word) : (s.answer r).obuf = s.obuf := rfl
@[simp] theorem State.answer_olen (r : Word) : (s.answer r).olen = s.olen := rfl
@[simp] theorem State.answer_value (r : Word) : (s.answer r).value = s.value := rfl
@[simp] theorem State.answer_vv (r : Word) : (s.answer r).vv = s.vv := rfl
@[simp] theorem State.answer_text (r : Word) : (s.answer r).text = s.text := rfl
@[simp] theorem State.answer_tv (r : Word) : (s.answer r).tv = s.tv := rfl
@[simp] theorem State.answer_fcode (r : Word) : (s.answer r).fcode = s.fcode := rfl
@[simp] theorem State.answer_pending (r : Word) : (s.answer r).pending = s.pending := rfl
@[simp] theorem State.answer_responses (r : Word) : (s.answer r).responses = s.responses ++ [r] := rfl
@[simp] theorem State.answer_pc (r : Word) : (s.answer r).pc = s.pc := rfl
@[simp] theorem State.answer_resets (r : Word) : (s.answer r).resets = s.resets := rfl

@[simp] theorem State.withPending_ibuf (evs : List HostEvent) : (s.withPending evs).ibuf = s.ibuf := rfl
@[simp] theorem State.withPending_ilen (evs : List HostEvent) : (s.withPending evs).ilen = s.ilen := rfl
@[simp] theorem State.withPending_obuf (evs : List HostEvent) : (s.withPending evs).obuf = s.obuf := rfl
@[simp] theorem State.withPending_olen (evs : List HostEvent) : (s.withPending evs).olen = s.olen := rfl
@[simp] theorem State.withPending_value (evs : List HostEvent) : (s.withPending evs).value = s.value := rfl
@[simp] theorem State.withPending_vv (evs : List HostEvent) : (s.withPending evs).vv = s.vv := rfl
@[simp] theorem State.withPending_text (evs : List HostEvent) : (s.withPending evs).text = s.text := rfl
@[simp] theorem State.withPending_tv (evs : List HostEvent) : (s.withPending evs).tv = s.tv := rfl
@[simp] theorem State.withPending_fcode (evs : List HostEvent) : (s.withPending evs).fcode = s.fcode := rfl
@[simp] theorem State.withPending_pending (evs : List HostEvent) : (s.withPending evs).pending = evs := rfl
@[simp] theorem State.withPending_responses (evs : List HostEvent) : (s.withPending evs).responses = s.responses := rfl
@[simp] theorem State.withPending_pc (evs : List HostEvent) : (s.withPending evs).pc = s.pc := rfl
@[simp] theorem State.withPending_resets (evs : List HostEvent) : (s.withPending evs).resets = s.resets := rfl

@[simp] theorem State.accept_ibuf : (s.accept).ibuf = s.ibuf := rfl
@[simp] theorem State.accept_ilen : (s.accept).ilen = s.ilen := rfl
@[simp] theorem State.accept_obuf : (s.accept).obuf = s.obuf := rfl
@[simp] theorem State.accept_olen : (s.accept).olen = s.olen := rfl
@[simp] theorem State.accept_value : (s.accept).value = s.value := rfl
@[simp] theorem State.accept_vv : (s.accept).vv = s.vv := rfl
@[simp] theorem State.accept_text : (s.accept).text = s.text := rfl
@[simp] theorem State.accept_tv : (s.accept).tv = s.tv := rfl
@[simp] theorem State.accept_fcode : (s.accept).fcode = s.fcode := rfl
@[simp] theorem State.accept_pending : (s.accept).pending = s.pending := rfl
@[simp] theorem State.accept_responses : (s.accept).responses = s.responses := rfl
@[simp] theorem State.accept_pc : (s.accept).pc = s.pc + 1 := rfl
@[simp] theorem State.accept_resets : (s.accept).resets = s.resets := rfl

@[simp] theorem State.resetAt_ibuf (n : Nat) : (State.resetAt n).ibuf = [] := rfl
@[simp] theorem State.resetAt_ilen (n : Nat) : (State.resetAt n).ilen = 0 := rfl
@[simp] theorem State.resetAt_obuf (n : Nat) : (State.resetAt n).obuf = [] := rfl
@[simp] theorem State.resetAt_olen (n : Nat) : (State.resetAt n).olen = 0 := rfl
@[simp] theorem State.resetAt_value (n : Nat) : (State.resetAt n).value = Config.unspecifiedValue n := rfl
@[simp] theorem State.resetAt_vv (n : Nat) : (State.resetAt n).vv = false := rfl
@[simp] theorem State.resetAt_text (n : Nat) : (State.resetAt n).text = [] := rfl
@[simp] theorem State.resetAt_tv (n : Nat) : (State.resetAt n).tv = false := rfl
@[simp] theorem State.resetAt_fcode (n : Nat) : (State.resetAt n).fcode = 0 := rfl
@[simp] theorem State.resetAt_pending (n : Nat) : (State.resetAt n).pending = [] := rfl
@[simp] theorem State.resetAt_responses (n : Nat) : (State.resetAt n).responses = [] := rfl
@[simp] theorem State.resetAt_pc (n : Nat) : (State.resetAt n).pc = 0 := rfl
@[simp] theorem State.resetAt_resets (n : Nat) : (State.resetAt n).resets = n := rfl

@[simp] theorem resetEvent_ibuf : (resetEvent s).ibuf = [] := rfl
@[simp] theorem resetEvent_ilen : (resetEvent s).ilen = 0 := rfl
@[simp] theorem resetEvent_obuf : (resetEvent s).obuf = [] := rfl
@[simp] theorem resetEvent_olen : (resetEvent s).olen = 0 := rfl
@[simp] theorem resetEvent_value : (resetEvent s).value = Config.unspecifiedValue (s.resets + 1) := rfl
@[simp] theorem resetEvent_vv : (resetEvent s).vv = false := rfl
@[simp] theorem resetEvent_text : (resetEvent s).text = [] := rfl
@[simp] theorem resetEvent_tv : (resetEvent s).tv = false := rfl
@[simp] theorem resetEvent_fcode : (resetEvent s).fcode = 0 := rfl
@[simp] theorem resetEvent_pending : (resetEvent s).pending = s.pending := rfl
@[simp] theorem resetEvent_responses : (resetEvent s).responses = [] := rfl
@[simp] theorem resetEvent_pc : (resetEvent s).pc = 0 := rfl
@[simp] theorem resetEvent_resets : (resetEvent s).resets = s.resets + 1 := rfl

end Sys2Proof.Machine
end

