-- ==== Sys2Proof/Laws/Ops.lean ====
section
/-! SUPPORT. One lemma for each shared operation, saying everything it can do. -/

namespace Sys2Proof.Machine

@[simp] theorem guarded_running {s : State} {body : State → Result} (h : s.fcode = 0) :
    guarded s body = body s := by
  simp [guarded, h]

@[simp] theorem guarded_frozen {s : State} {body : State → Result} (h : s.fcode ≠ 0) :
    guarded s body = refuse s := by
  rw [guarded, if_neg h]

/-- A read of one cell, in terms of what the buffer holds. -/
theorem readCell_ok_iff (sp : Space) (i : Nat) (s : State) (b : Byte) :
    readCell sp i s = .ok b ↔ i < cellCount sp ∧ readMem (s.mem sp) i = some b := by
  unfold readCell
  split
  · split <;> simp_all
  · simp_all

/-- Reading `n` cells from `k` of a buffer that holds a stored sequence. -/
theorem readCells_memOf (sp : Space) (s : State) (bs : List Byte) (k n : Nat)
    (hm : s.mem sp = memOf bs) (hn : k + n ≤ bs.length) (hc : k + n ≤ cellCount sp) :
    readCells sp s k n = .ok ((bs.drop k).take n) := by
  induction n generalizing k with
  | zero => simp [readCells]
  | succ n ih =>
    have hk : k < bs.length := by omega
    have h1 : readCell sp k s = .ok bs[k] := by
      rw [readCell_ok_iff, hm, readMem_memOf]
      exact ⟨by omega, List.getElem?_eq_getElem hk⟩
    simp only [readCells, h1, ih (k + 1) (by omega) (by omega)]
    rw [List.drop_eq_getElem_cons hk, List.take_succ_cons]

/-- The sequence `readCells` answers has the length asked for. -/
theorem readCells_length (sp : Space) (s : State) (k n : Nat) (bs : List Byte)
    (h : readCells sp s k n = .ok bs) : bs.length = n := by
  induction n generalizing k bs with
  | zero => simp [readCells] at h; simp [← h]
  | succ n ih =>
    simp only [readCells] at h
    split at h
    · simp at h
    · split at h
      · simp at h
      · rename_i bs' hbs
        simp only [Except.ok.injEq] at h
        subst h
        simp [ih _ _ hbs]

@[simp] theorem xorAt_length (i : Nat) (m : Byte) (bs : List Byte) :
    (xorAt i m bs).length = bs.length := by
  simp [xorAt]

/-- `pad` never changes the length it was asked for (R106). -/
theorem padBytes_length (input : List Byte) (t : Nat) (h : input.length ≤ t) :
    (padBytes input t).length = t := by
  unfold padBytes
  split
  · assumption
  · simp [padFill]; omega

/-- Everything `padTo` can do. -/
theorem padTo_cases (t : Nat) (s : State) :
    (t < s.ilen.toNat ∧ padTo t s = raise .inputTooLong s) ∨
    (s.ilen.toNat ≤ t ∧ ∃ input, readCells .ibuf s 0 s.ilen.toNat = .ok input ∧
      padTo t s = respond 0x00 (s.setOutput (padBytes input t) t)) ∨
    (s.ilen.toNat ≤ t ∧ ∃ f, readCells .ibuf s 0 s.ilen.toNat = .error f ∧
      padTo t s = .fault f) := by
  unfold padTo
  by_cases h : t < s.ilen.toNat
  · exact .inl ⟨h, by simp [h]⟩
  · right
    cases hr : readCells .ibuf s 0 s.ilen.toNat with
    | ok input => exact .inl ⟨by omega, input, rfl, by simp [h]⟩
    | error f => exact .inr ⟨by omega, f, rfl, by simp [h]⟩

/-- Everything `readOut` can do: it never writes the engine's state but to fault. -/
theorem readOut_cases (valid : Bool) (bound : Nat) (i : Byte)
    (get : State → Except Fault Byte) (s : State) :
    (valid = false ∧ readOut valid bound i get s = raise .notReady s) ∨
    (valid = true ∧ bound ≤ i.toNat ∧ readOut valid bound i get s = raise .indexRange s) ∨
    (valid = true ∧ i.toNat < bound ∧ ∃ b, get s = .ok b ∧
      readOut valid bound i get s = respond b s) ∨
    (valid = true ∧ i.toNat < bound ∧ ∃ f, get s = .error f ∧
      readOut valid bound i get s = .fault f) := by
  cases valid with
  | false => exact .inl ⟨rfl, by simp [readOut]⟩
  | true =>
    by_cases h : i.toNat < bound
    · cases hg : get s with
      | ok b => exact .inr (.inr (.inl ⟨rfl, h, b, rfl, by simp [readOut, h, hg]⟩))
      | error f => exact .inr (.inr (.inr ⟨rfl, h, f, rfl, by simp [readOut, h, hg]⟩))
    · exact .inr (.inl ⟨rfl, by omega, by simp [readOut, h]⟩)

end Sys2Proof.Machine
end

