-- ==== Sys2Proof/Laws/Exec.lean ====
section
/-! SUPPORT. What a command can do, said once: `exec_cases` for every command and
`transact_cases` for every command word. Invariants and frames are derived from these and
never unfold a meaning. -/

namespace Sys2Proof.Machine

/-- The effect of a command that completes, with the byte it answers. -/
def Effect : Instr → State → Byte → State → Prop
  | .nop, s, d, t => d = 0x00 ∧ t = s
  | .clr, s, d, t => d = 0x00 ∧ t = s.clearInput
  | .push b, s, d, t => d = 0x00 ∧ t = pushInput b s
  | .pad16, s, d, t => d = 0x00 ∧ s.ilen.toNat ≤ 16 ∧
      ∃ input, readCells .ibuf s 0 s.ilen.toNat = .ok input ∧
        t = s.setOutput (padBytes input 16) 16
  | .pad32, s, d, t => d = 0x00 ∧ s.ilen.toNat ≤ 32 ∧
      ∃ input, readCells .ibuf s 0 s.ilen.toNat = .ok input ∧
        t = s.setOutput (padBytes input 32) 32
  | .ldv, s, d, t => d = 0x00 ∧ s.ilen.toNat = 16 ∧
      ∃ b, readCells .ibuf s 0 8 = .ok b ∧ t = s.setValue (word64 b Config.wordOrder)
  | .fmt, s, d, t => d = 0x00 ∧ s.vv = true ∧ t = s.setText (textOf s.value)
  | .rdo i, s, d, t => s.ov = true ∧ i.toNat < s.olen.toNat ∧
      readCell .obuf i.toNat s = .ok d ∧ t = s
  | .rdv i, s, d, t => s.vv = true ∧ i.toNat < 8 ∧ d = beByte s.value i.toNat ∧ t = s
  | .rdt i, s, d, t => s.tv = true ∧ i.toNat < 18 ∧ readCell .text i.toNat s = .ok d ∧ t = s
  | .rds, s, d, t => d = statusByte s ∧ t = s
  | .rdil, s, d, t => d = ilenByte s ∧ t = s
  | .rdol, s, d, t => d = olenByte s ∧ t = s

/-- The condition under which a command raises a fault (60_exceptions R171 to R175). -/
def Raises : Instr → State → Cause → Prop
  | .pad16, s, c => 16 < s.ilen.toNat ∧ c = .inputTooLong
  | .pad32, s, c => 32 < s.ilen.toNat ∧ c = .inputTooLong
  | .ldv, s, c => s.ilen.toNat ≠ 16 ∧ c = .badBlockLength
  | .fmt, s, c => s.vv = false ∧ c = .notReady
  | .rdo i, s, c => (s.ov = false ∧ c = .notReady) ∨
      (s.ov = true ∧ s.olen.toNat ≤ i.toNat ∧ c = .indexRange)
  | .rdv i, s, c => (s.vv = false ∧ c = .notReady) ∨
      (s.vv = true ∧ 8 ≤ i.toNat ∧ c = .indexRange)
  | .rdt i, s, c => (s.tv = false ∧ c = .notReady) ∨
      (s.tv = true ∧ 18 ≤ i.toNat ∧ c = .indexRange)
  | .nop, _, _ | .clr, _, _ | .push _, _, _ | .rds, _, _ | .rdil, _, _ | .rdol, _, _ => False

/-- A command refused by the freeze (60_exceptions R177). -/
theorem exec_frozen (i : Instr) (s : State) (h : s.fcode ≠ 0) :
    exec i s = .next (s.answer (responseWord s.fcode 0x00)) := by
  cases i <;> simp only [exec, execNop, execClr, execPush, execPad16, execPad32, execLdv, execFmt,
    execRdo, execRdv, execRdt, execRds, execRdil, execRdol] <;> exact guarded_frozen h

/-! The body each command runs in an engine that is not frozen. -/

section Running
variable {s : State} (h : s.fcode = 0)
include h

theorem exec_nop : exec .nop s = respond 0x00 s := by
  rw [exec, execNop, guarded_running h]

theorem exec_clr : exec .clr s = respond 0x00 s.clearInput := by
  rw [exec, execClr, guarded_running h]

theorem exec_push (b : Byte) : exec (.push b) s = respond 0x00 (pushInput b s) := by
  rw [exec, execPush, guarded_running h]

theorem exec_pad16 : exec .pad16 s = padTo 16 s := by
  rw [exec, execPad16, guarded_running h]

theorem exec_pad32 : exec .pad32 s = padTo 32 s := by
  rw [exec, execPad32, guarded_running h]

theorem exec_ldv : exec .ldv s = loadValue Config.wordOrder s := by
  rw [exec, execLdv, guarded_running h]

theorem exec_fmt :
    exec .fmt s = if s.vv then respond 0x00 (s.setText (textOf s.value)) else raise .notReady s := by
  rw [exec, execFmt, guarded_running h]

theorem exec_rdo (k : Byte) :
    exec (.rdo k) s = readOut s.ov s.olen.toNat k (readCell .obuf k.toNat) s := by
  rw [exec, execRdo, guarded_running h]

theorem exec_rdv (k : Byte) :
    exec (.rdv k) s = readOut s.vv 8 k (fun s => .ok (beByte s.value k.toNat)) s := by
  rw [exec, execRdv, guarded_running h]

theorem exec_rdt (k : Byte) :
    exec (.rdt k) s = readOut s.tv 18 k (readCell .text k.toNat) s := by
  rw [exec, execRdt, guarded_running h]

theorem exec_rds : exec .rds s = respond (statusByte s) s := by
  rw [exec, execRds, guarded_running h]

theorem exec_rdil : exec .rdil s = respond (ilenByte s) s := by
  rw [exec, execRdil, guarded_running h]

theorem exec_rdol : exec .rdol s = respond (olenByte s) s := by
  rw [exec, execRdol, guarded_running h]

end Running

/-- The read-out commands answer in one of three ways, or stop on a cell without a value. -/
theorem readOut_answers {valid : Bool} {bound : Nat} {i : Byte}
    {get : State → Except Fault Byte} {s t : State}
    (h : readOut valid bound i get s = .next t) :
    (valid = false ∧ raise .notReady s = .next t) ∨
    (valid = true ∧ bound ≤ i.toNat ∧ raise .indexRange s = .next t) ∨
    (valid = true ∧ i.toNat < bound ∧ ∃ b, get s = .ok b ∧ respond b s = .next t) := by
  rcases readOut_cases valid bound i get s with ⟨hv, e⟩ | ⟨hv, hi, e⟩ | ⟨hv, hi, b, hb, e⟩ |
    ⟨_, _, f, _, e⟩
  · exact .inl ⟨hv, e ▸ h⟩
  · exact .inr (.inl ⟨hv, hi, e ▸ h⟩)
  · exact .inr (.inr ⟨hv, hi, b, hb, e ▸ h⟩)
  · rw [e] at h; cases h

/-- What `PAD16` and `PAD32` answer with a next state. -/
theorem padTo_answers {n : Nat} {s t : State} (h : padTo n s = .next t) :
    (n < s.ilen.toNat ∧ raise .inputTooLong s = .next t) ∨
    (s.ilen.toNat ≤ n ∧ ∃ input, readCells .ibuf s 0 s.ilen.toNat = .ok input ∧
      respond 0x00 (s.setOutput (padBytes input n) n) = .next t) := by
  rcases padTo_cases n s with ⟨hl, e⟩ | ⟨hl, inp, hr, e⟩ | ⟨_, f, _, e⟩
  · exact .inl ⟨hl, e ▸ h⟩
  · exact .inr ⟨hl, inp, hr, e ▸ h⟩
  · rw [e] at h; cases h

/-- Everything a command can do when it answers a next state. -/
theorem exec_cases (i : Instr) (s t : State) (h : exec i s = .next t) :
    (s.fcode ≠ 0 ∧ t = s.answer (responseWord s.fcode 0x00)) ∨
    (s.fcode = 0 ∧ ∃ c, Raises i s c ∧
      t = (s.setFcode (codeOf c)).answer (responseWord (codeOf c) 0x00)) ∨
    (s.fcode = 0 ∧ ∃ d u, Effect i s d u ∧ t = u.answer (responseWord 0x00 d)) := by
  by_cases hf : s.fcode = 0
  · right
    have raised {c : Cause} (hc : Raises i s c) (e : raise c s = .next t) :
        (s.fcode = 0 ∧ ∃ c, Raises i s c ∧
          t = (s.setFcode (codeOf c)).answer (responseWord (codeOf c) 0x00)) ∨
        (s.fcode = 0 ∧ ∃ d u, Effect i s d u ∧ t = u.answer (responseWord 0x00 d)) :=
      .inl ⟨hf, c, hc, by simpa [raise] using e.symm⟩
    have done {d : Byte} {u : State} (hu : Effect i s d u) (e : respond d u = .next t) :
        (s.fcode = 0 ∧ ∃ c, Raises i s c ∧
          t = (s.setFcode (codeOf c)).answer (responseWord (codeOf c) 0x00)) ∨
        (s.fcode = 0 ∧ ∃ d u, Effect i s d u ∧ t = u.answer (responseWord 0x00 d)) :=
      .inr ⟨hf, d, u, hu, by simpa [respond] using e.symm⟩
    cases i <;> simp only [exec, execNop, execClr, execPush, execPad16, execPad32, execLdv,
      execFmt, execRdo, execRdv, execRdt, execRds, execRdil, execRdol, guarded_running hf] at h
    case nop => exact done ⟨rfl, rfl⟩ h
    case clr => exact done ⟨rfl, rfl⟩ h
    case push b => exact done ⟨rfl, rfl⟩ h
    case pad16 =>
      rcases padTo_answers h with ⟨hl, e⟩ | ⟨hl, inp, hr, e⟩
      · exact raised ⟨hl, rfl⟩ e
      · exact done ⟨rfl, hl, inp, hr, rfl⟩ e
    case pad32 =>
      rcases padTo_answers h with ⟨hl, e⟩ | ⟨hl, inp, hr, e⟩
      · exact raised ⟨hl, rfl⟩ e
      · exact done ⟨rfl, hl, inp, hr, rfl⟩ e
    case ldv =>
      by_cases hl : s.ilen.toNat = 16
      · cases hr : readCells .ibuf s 0 8 with
        | ok b =>
          refine done ⟨rfl, hl, b, hr, rfl⟩ ?_
          simpa [loadValue, Config.blockLen, hl, hr] using h
        | error f => simp [loadValue, Config.blockLen, hl, hr] at h
      · refine raised ⟨hl, rfl⟩ ?_
        simpa [loadValue, Config.blockLen, hl] using h
    case fmt =>
      cases hv : s.vv with
      | true => exact done ⟨rfl, hv, rfl⟩ (by simpa [hv] using h)
      | false => exact raised ⟨hv, rfl⟩ (by simpa [hv] using h)
    case rdo k =>
      rcases readOut_answers h with
        ⟨hv, e⟩ | ⟨hv, hi, e⟩ | ⟨hv, hi, b, hb, e⟩
      · exact raised (.inl ⟨hv, rfl⟩) e
      · exact raised (.inr ⟨hv, hi, rfl⟩) e
      · exact done ⟨hv, hi, hb, rfl⟩ e
    case rdv k =>
      rcases readOut_answers h with
        ⟨hv, e⟩ | ⟨hv, hi, e⟩ | ⟨hv, hi, b, hb, e⟩
      · exact raised (.inl ⟨hv, rfl⟩) e
      · exact raised (.inr ⟨hv, hi, rfl⟩) e
      · exact done ⟨hv, hi, by simpa using hb.symm, rfl⟩ e
    case rdt k =>
      rcases readOut_answers h with
        ⟨hv, e⟩ | ⟨hv, hi, e⟩ | ⟨hv, hi, b, hb, e⟩
      · exact raised (.inl ⟨hv, rfl⟩) e
      · exact raised (.inr ⟨hv, hi, rfl⟩) e
      · exact done ⟨hv, hi, hb, rfl⟩ e
    case rds => exact done ⟨rfl, rfl⟩ h
    case rdil => exact done ⟨rfl, rfl⟩ h
    case rdol => exact done ⟨rfl, rfl⟩ h
  · left
    rw [exec_frozen i s hf] at h
    exact ⟨hf, by simpa using h.symm⟩

/-- Everything a command word can do when it answers a next state: a command's, or an
illegal word's. -/
theorem transact_cases (w : Word) (s t : State) (h : transact w s = .next t) :
    (∃ i, decode w = .ok i ∧ exec i s.accept = .next t) ∨
    (∃ e, decode w = .error e ∧ s.fcode = 0 ∧
      t = (s.accept.setFcode 0x02).answer (responseWord 0x02 0x00)) ∨
    (∃ e, decode w = .error e ∧ s.fcode ≠ 0 ∧
      t = s.accept.answer (responseWord s.fcode 0x00)) := by
  unfold transact at h
  split at h
  · exact .inl ⟨_, ‹_›, h⟩
  · rename_i e he
    by_cases hf : s.fcode = 0
    · refine .inr (.inl ⟨e, he, hf, ?_⟩)
      simpa [illegalWord, guarded, hf, raise, codeOf] using h.symm
    · refine .inr (.inr ⟨e, he, hf, ?_⟩)
      rw [illegalWord, guarded_frozen (by simpa using hf)] at h
      simpa [refuse] using h.symm

/-- Everything a step can do when it answers a next state: the engine is idle, a command
word is transacted, or a reset event happens. -/
theorem step_cases (s t : State) (h : step s = .next t) :
    (s.pending = [] ∧ t = s) ∨
    (∃ w rest, s.pending = .command w :: rest ∧ transact w (s.withPending rest) = .next t) ∨
    (∃ rest, s.pending = .reset :: rest ∧ t = resetEvent (s.withPending rest)) := by
  unfold step at h
  split at h
  · exact .inl ⟨‹_›, by simpa using h.symm⟩
  · exact .inr (.inr ⟨_, ‹_›, by simpa using h.symm⟩)
  · exact .inr (.inl ⟨_, _, ‹_›, h⟩)

end Sys2Proof.Machine
end

