-- ==== Sys2Proof/Laws/HostRun.lean ====
section
/-! SUPPORT. What the host gets for one command and for a list of commands, in terms of
what the command does: later proofs cite these and never unfold a transaction. -/

namespace Sys2Proof.Machine

theorem fcField_responseWord (a d : Byte) : fcField (responseWord a d) = a := by
  apply BitVec.eq_of_toNat_eq
  rw [fcField, BitVec.extractLsb'_toNat, responseWord, append_toNat, Nat.shiftRight_eq_div_pow]
  have := a.isLt
  have := d.isLt
  omega

theorem dataField_responseWord (a d : Byte) : dataField (responseWord a d) = d := by
  apply BitVec.eq_of_toNat_eq
  rw [dataField, BitVec.extractLsb'_toNat, responseWord, append_toNat, Nat.shiftRight_zero]
  have := d.isLt
  omega

/-- Everything `sendOne` can do when the command answers its word with one response. -/
theorem sendOne_answer {i : Instr} {s u : State} {c d : Byte} (hw : decode (encode i) = .ok i)
    (h : exec i s.accept = .next (u.answer (responseWord c d))) :
    sendOne i s = if c = 0x00 then .ok (d, u.answer (responseWord c d))
      else .error (.response c (u.answer (responseWord c d))) := by
  have e : (u.answer (responseWord c d)).responses.getLast? = some (responseWord c d) := by
    simp
  simp only [sendOne, transact, hw, h, e, fcField_responseWord, dataField_responseWord]

/-- A list of commands sent in two parts. -/
theorem sendAll_append (a b : List Instr) (s : State) :
    sendAll (a ++ b) s =
      match sendAll a s with
      | .error e => .error e
      | .ok (ds, t) =>
        match sendAll b t with
        | .error e => .error e
        | .ok (es, u) => .ok (ds ++ es, u) := by
  induction a generalizing s with
  | nil =>
    simp only [List.nil_append, sendAll]
    cases sendAll b s <;> rfl
  | cons i a ih =>
    simp only [List.cons_append, sendAll]
    cases sendOne i s with
    | error e => rfl
    | ok x =>
      simp only [ih]
      cases sendAll a x.2 with
      | error e => rfl
      | ok y => simp only; cases sendAll b y.2 <;> rfl

/-- A read-out of cells `0 .. n-1` whose every command succeeds, whatever the reads before
it: the bytes in index order. -/
theorem sendAll_readAll (cmd : Byte → Instr) (n : Nat) (f : Nat → Byte) (P : State → Prop)
    (step : ∀ s, P s → ∀ i < n, ∃ t, sendOne (cmd (BitVec.ofNat 8 i)) s = .ok (f i, t) ∧ P t)
    (s : State) (h : P s) :
    ∃ t, sendAll (readAll cmd n) s = .ok ((List.range n).map f, t) ∧ P t := by
  have upto : ∀ m ≤ n,
      ∃ t, sendAll (readAll cmd m) s = .ok ((List.range m).map f, t) ∧ P t := by
    intro m
    induction m with
    | zero => exact fun _ => ⟨s, rfl, h⟩
    | succ m ih =>
      intro hm
      obtain ⟨t, ht, pt⟩ := ih (by omega)
      obtain ⟨u, hu, pu⟩ := step t pt m (by omega)
      have e : readAll cmd (m + 1) = readAll cmd m ++ [cmd (BitVec.ofNat 8 m)] := by
        simp [readAll, List.range_succ]
      exact ⟨u, by rw [e, sendAll_append, ht]; simp [sendAll, hu, List.range_succ], pu⟩
  exact upto n le_rfl

end Sys2Proof.Machine
end

