-- ==== Sys2Proof/Laws/Inv.lean ====
section
/-! SUPPORT. What the invariant gives: each buffer is a stored sequence of known length,
the reads of the commands succeed, and the operations over them in closed form. -/

namespace Sys2Proof.Machine

@[simp] theorem ibufCap_eq : Config.ibufCap = 32 := rfl
@[simp] theorem ilenSat_eq : Config.ilenSat = 33 := rfl
@[simp] theorem keyLen_eq : Config.keyLen = 32 := rfl
@[simp] theorem blockLen_eq : Config.blockLen = 16 := rfl
@[simp] theorem textLen_eq : Config.textLen = 18 := rfl

/-- Under the invariant `IBUF` is its bytes, `min ILEN 32` of them. -/
theorem ibuf_eq {s : State} (h : s.EngineInv) :
    s.ibuf = memOf (bytesOf s.ibuf) ∧ (bytesOf s.ibuf).length = min s.ilen.toNat 32 :=
  eq_memOf_of_addrs _ _ h.2.2.2.2.2.2.1

/-- Under the invariant `OBUF` is its bytes, `OLEN` of them. -/
theorem obuf_eq {s : State} (h : s.EngineInv) :
    s.obuf = memOf (bytesOf s.obuf) ∧ (bytesOf s.obuf).length = s.olen.toNat :=
  eq_memOf_of_addrs _ _ h.2.2.2.2.2.2.2

/-- Under the invariant a valid `TEXT` is the text of `VALUE`. -/
theorem text_eq {s : State} (h : s.EngineInv) (ht : s.tv = true) :
    s.text = memOf (textOf s.value) :=
  h.2.2.2.1 ht

/-- Under the invariant the first pushed bytes can be read. -/
theorem readCells_ibuf {s : State} (h : s.EngineInv) (n : Nat) (hn : n ≤ min s.ilen.toNat 32) :
    readCells .ibuf s 0 n = .ok ((bytesOf s.ibuf).take n) := by
  have hb := ibuf_eq h
  exact readCells_memOf .ibuf s (bytesOf s.ibuf) 0 n hb.1 (by omega) (by simp [cellCount]; omega)

/-- `PAD16` and `PAD32` on an input that is not too long. -/
theorem padTo_of_inv {s : State} (h : s.EngineInv) {t : Nat} (ht : s.ilen.toNat ≤ t)
    (h32 : s.ilen.toNat ≤ 32) :
    padTo t s = respond 0x00 (s.setOutput (padBytes (bytesOf s.ibuf) t) t) := by
  have e := readCells_ibuf h s.ilen.toNat (by omega)
  have hl : (bytesOf s.ibuf).take s.ilen.toNat = bytesOf s.ibuf :=
    List.take_of_length_le (by rw [(ibuf_eq h).2]; omega)
  rw [hl] at e
  rw [padTo, if_neg (by omega), e]

/-- `LDV` on a whole cipher block. -/
theorem loadValue_of_inv {s : State} (h : s.EngineInv) (o : WordOrder)
    (hl : s.ilen.toNat = 16) :
    loadValue o s = respond 0x00 (s.setValue (word64 ((bytesOf s.ibuf).take 8) o)) := by
  rw [loadValue, if_pos (by simpa using hl), readCells_ibuf h 8 (by omega)]

/-- The effect of a completed command never touches the fault code or the host's side. -/
theorem effect_keeps {i : Instr} {s u : State} {d : Byte} (h : Effect i s d u) :
    u.fcode = s.fcode ∧ u.responses = s.responses ∧ u.pc = s.pc ∧ u.pending = s.pending ∧
      u.resets = s.resets := by
  cases i <;> simp only [Effect] at h
  case push b => rw [h.2]; unfold pushInput; split <;> (try split) <;> simp
  case pad16 => obtain ⟨-, -, _, -, rfl⟩ := h; simp
  case pad32 => obtain ⟨-, -, _, -, rfl⟩ := h; simp
  case ldv => obtain ⟨-, -, _, -, rfl⟩ := h; simp
  case fmt => obtain ⟨-, -, rfl⟩ := h; simp
  case rdo k => obtain ⟨-, -, -, rfl⟩ := h; simp
  case rdv k => obtain ⟨-, -, -, rfl⟩ := h; simp
  case rdt k => obtain ⟨-, -, -, rfl⟩ := h; simp
  all_goals (obtain ⟨-, rfl⟩ := h; simp)

theorem beBytes_length (v : BitVec 64) : (beBytes v).length = 8 := by simp [beBytes]

theorem textOf_length (v : BitVec 64) : (textOf v).length = 18 := by
  simp [textOf, beBytes, hexPair, List.range_succ]

end Sys2Proof.Machine
end

