-- ==== Sys2Proof/Laws/PerInstr.lean ====
section
/-! SUPPORT. Families of facts about every command as syntax, one lemma per constructor.
`RowMatch`: the word of a command selects that command's row of the opcode map
(spec/30_encoding.md R74), the row's match and mask written out from the table. -/

namespace Sys2Proof.Laws.RowMatch

/-- The row's `match` and `mask` (R74). -/
def row : Instr → Word × Word
  | .nop => (0x0000, 0xFFFF)
  | .clr => (0x0100, 0xFFFF)
  | .push _ => (0x0200, 0xFF00)
  | .pad16 => (0x0310, 0xFFFF)
  | .pad32 => (0x0320, 0xFFFF)
  | .ldv => (0x0400, 0xFFFF)
  | .fmt => (0x0500, 0xFFFF)
  | .rdo _ => (0x0800, 0xFF00)
  | .rdv _ => (0x0900, 0xFF00)
  | .rdt _ => (0x0A00, 0xFF00)
  | .rds => (0x0B00, 0xFFFF)
  | .rdil => (0x0B01, 0xFFFF)
  | .rdol => (0x0B02, 0xFFFF)

/-- The command's word selects the command's row. -/
def Statement (i : Instr) : Prop := encode i &&& (row i).2 = (row i).1

/-- A mask of the high byte leaves the high byte. -/
theorem high_byte (p b : Byte) : (p ++ b : Word) &&& 0xFF00 = p ++ (0 : Byte) := by
  have e : (0xFF00 : Word) = (0xFF : Byte) ++ (0x00 : Byte) := by decide
  have h1 : p &&& 0xFF = p := BitVec.and_allOnes
  have h2 : b &&& 0x00 = 0x00 := BitVec.and_zero
  rw [e, BitVec.and_append, h1, h2]

theorem nop : Statement .nop := rfl
theorem clr : Statement .clr := rfl
theorem push (b : Byte) : Statement (.push b) := high_byte 0x02 b
theorem pad16 : Statement .pad16 := rfl
theorem pad32 : Statement .pad32 := rfl
theorem ldv : Statement .ldv := rfl
theorem fmt : Statement .fmt := rfl
theorem rdo (i : Byte) : Statement (.rdo i) := high_byte 0x08 i
theorem rdv (i : Byte) : Statement (.rdv i) := high_byte 0x09 i
theorem rdt (i : Byte) : Statement (.rdt i) := high_byte 0x0A i
theorem rds : Statement .rds := rfl
theorem rdil : Statement .rdil := rfl
theorem rdol : Statement .rdol := rfl

end Sys2Proof.Laws.RowMatch
end

