-- ==== Sys2Proof/Laws/Ports.lean ====
section
/-! SUPPORT. What a clock edge can do, said once: `clockEdge_next` and `engineEdge_cases`.
Statements about the ports are derived from these and never unfold an edge. -/

namespace Sys2Proof.Machine

variable (p : PortState) (inp : PortIn) (s : State) (ph : Phase)

@[simp] theorem PortState.after_engine : (p.after inp s ph).engine = s := rfl
@[simp] theorem PortState.after_phase : (p.after inp s ph).phase = ph := rfl
@[simp] theorem PortState.after_offered :
    (p.after inp s ph).offered = stillOffered inp p := rfl
@[simp] theorem PortState.after_sent : (p.after inp s ph).sent = sentAfter inp p := rfl
@[simp] theorem PortState.after_edges : (p.after inp s ph).edges = p.edges + 1 := rfl

variable {p inp s ph}

/-- An edge with a steady host is the engine's part of it. -/
theorem clockEdge_of_engineEdge (hs : steady inp p = true)
    (h : engineEdge inp p = .next (s, ph)) : clockEdge inp p = .next (p.after inp s ph) := by
  simp [clockEdge, hs, h]

/-- An edge that answers a next state: the host was steady and the engine did its part. -/
theorem clockEdge_next {q : PortState} (h : clockEdge inp p = .next q) :
    steady inp p = true ∧
      ∃ s ph, engineEdge inp p = .next (s, ph) ∧ q = p.after inp s ph := by
  unfold clockEdge at h
  split at h
  · rename_i hs
    split at h
    · rename_i s ph he
      exact ⟨hs, s, ph, he, by simpa using h.symm⟩
    · cases h
    · cases h
  · cases h

/-- Everything the engine's part of an edge can do when it does not stop. -/
theorem engineEdge_cases (h : engineEdge inp p = .next (s, ph)) :
    (inp.rst = true ∧ s = resetEvent p.engine ∧ ph = .held) ∨
    (inp.rst = false ∧ p.phase = .held ∧ s = p.engine ∧ ph = .idle) ∨
    (inp.rst = false ∧ p.phase = .idle ∧ inp.cmdValid = true ∧ s = p.engine ∧
      ph = .busy inp.cmdData (latencyOf inp p)) ∨
    (inp.rst = false ∧ p.phase = .idle ∧ inp.cmdValid = false ∧ s = p.engine ∧ ph = .idle) ∨
    (inp.rst = false ∧ ∃ w n, p.phase = .busy w n ∧
      ((n ≤ 1 ∧ transact w p.engine = .next s ∧ ph = .answering) ∨
        (1 < n ∧ s = p.engine ∧ ph = .busy w (n - 1)))) ∨
    (inp.rst = false ∧ p.phase = .answering ∧ s = p.engine ∧
      ph = if inp.rspReady then .idle else .answering) := by
  unfold engineEdge at h
  cases hr : inp.rst with
  | true => simp [hr] at h; exact .inl ⟨rfl, h.1.symm, h.2.symm⟩
  | false =>
    right
    cases hp : p.phase with
    | held => simp [hr, hp] at h; exact .inl ⟨rfl, rfl, h.1.symm, h.2.symm⟩
    | idle =>
      cases hv : inp.cmdValid with
      | true => simp [hr, hp, hv] at h; exact .inr (.inl ⟨rfl, rfl, rfl, h.1.symm, h.2.symm⟩)
      | false =>
        simp [hr, hp, hv] at h
        exact .inr (.inr (.inl ⟨rfl, rfl, rfl, h.1.symm, h.2.symm⟩))
    | busy w n =>
      refine .inr (.inr (.inr (.inl ⟨rfl, w, n, rfl, ?_⟩)))
      simp only [hr, hp, workEdge] at h
      by_cases hn : n ≤ 1
      · cases ht : transact w p.engine <;> simp [hn, ht] at h
        exact .inl ⟨hn, by rw [h.1], h.2.symm⟩
      · simp [hn] at h
        exact .inr ⟨by omega, h.1.symm, h.2.symm⟩
    | answering =>
      refine .inr (.inr (.inr (.inr ⟨rfl, rfl, ?_⟩)))
      cases hy : inp.rspReady <;> simp [hr, hp, hy] at h <;> simp [h]

end Sys2Proof.Machine
end

