-- ==== Sys2Proof/Tests/Slice0.lean ====
section
/-! SUPPORT. The model's own tests: words and results written out from the spec
(spec/30_encoding.md R74, R76; spec/95_test_vectors.md), and a witness for each
obligation that has hypotheses. -/

open Sys2Proof Sys2Proof.Machine Sys2Proof.Claims

namespace Sys2Proof.Tests

/-! ## Small states -/

/-- The reset state with a number for the unspecified `VALUE`, so that states compare. -/
def base : State := { State.reset with value := 0x1122334455667788 }

/-- `base` after the bytes of a sequence were pushed (R92, R93). -/
def pushed (bs : List Byte) : State :=
  { base with ibuf := memOf (bs.take 32), ilen := BitVec.ofNat 6 (min bs.length 33) }

/-- "MY_FLAG". -/
def label : List Byte := [0x4d, 0x59, 0x5f, 0x46, 0x4c, 0x41, 0x47]

/-- The padded label of D-P3. -/
def paddedLabel : List Byte :=
  [0x4d, 0x59, 0x5f, 0x46, 0x4c, 0x41, 0x47, 0x80, 0, 0, 0, 0, 0, 0, 0, 0x01]

/-- The 16 bytes of D-L1. -/
def block : List Byte :=
  [0x01, 0x23, 0x45, 0x67, 0x89, 0xab, 0xcd, 0xef, 0x10, 0x32, 0x54, 0x76, 0x98, 0xba, 0xdc, 0xfe]

/-- The text of D-V1. -/
def valueText : List Byte :=
  [0x30, 0x78, 0x65, 0x66, 0x63, 0x64, 0x61, 0x62, 0x38, 0x39, 0x36, 0x37, 0x34, 0x35, 0x32,
    0x33, 0x30, 0x31]

/-- After D-C3. -/
def padded16 : State := { pushed label with obuf := memOf paddedLabel, olen := 16 }

/-- The 32 bytes of D-P10 pushed and padded. -/
def padded32 : State :=
  let bs := (List.range 32).map fun i => BitVec.ofNat 8 (i + 1)
  { pushed bs with obuf := memOf bs, olen := 32 }

/-- After D-L1. -/
def loaded : State := { pushed block with value := 0xefcdab8967452301, vv := true }

/-- After D-L2. -/
def formatted : State := { loaded with text := memOf valueText, tv := true }

/-- An engine frozen with code 0x01. -/
def frozen : State := { pushed label with fcode := 0x01 }

/-- `n` bytes 0x61. -/
def bytes (n : Nat) : List Byte := List.replicate n 0x61

/-- A view of the next state, if there is one. -/
def see {α : Type} (r : Result) (f : State → α) : Option α :=
  match r with
  | .next t => some (f t)
  | .fault _ => none
  | .refused _ => none

/-- The response to the command, if the step answers a next state. -/
def reply (r : Result) : Option Word :=
  match r with
  | .next t => t.responses.getLast?
  | .fault _ => none
  | .refused _ => none

/-! ## Well-formedness: one ill-formed word for each row of R76 -/

theorem test_wellformed_nopArg : illegalRow 0x0001 = some .nopArg := by decide
theorem test_wellformed_clrArg : illegalRow 0x01FF = some .clrArg := by decide
theorem test_wellformed_padLength : illegalRow 0x0311 = some .padLength := by decide
theorem test_wellformed_ldvArg : illegalRow 0x0401 = some .ldvArg := by decide
theorem test_wellformed_fmtArg : illegalRow 0x05FF = some .fmtArg := by decide
theorem test_wellformed_ctrlReg : illegalRow 0x0B03 = some .ctrlReg := by decide
theorem test_wellformed_opUnassigned :
    illegalRow 0x07FF = some .opUnassigned ∧ illegalRow 0xFFFF = some .opUnassigned := by decide
theorem test_wellformed_legal : wordLegal 0x0320 = true ∧ wordLegal 0x0AFF = true := by decide

/-! ## Decoding: the words of R74 and of 95 section 2.7 -/

theorem test_decode_input :
    decode 0x0000 = .ok .nop ∧ decode 0x0100 = .ok .clr ∧ decode 0x0200 = .ok (.push 0x00) ∧
    decode 0x02FF = .ok (.push 0xFF) ∧ decode 0x024D = .ok (.push 0x4D) := by decide
theorem test_decode_padder :
    decode 0x0310 = .ok .pad16 ∧ decode 0x0320 = .ok .pad32 ∧
    decode 0x0300 = .error .padLength ∧ decode 0x03FF = .error .padLength := by decide
theorem test_decode_formatter :
    decode 0x0400 = .ok .ldv ∧ decode 0x0500 = .ok .fmt ∧ decode 0x0401 = .error .ldvArg := by
  decide
theorem test_decode_readout :
    decode 0x080F = .ok (.rdo 0x0F) ∧ decode 0x0907 = .ok (.rdv 0x07) ∧
    decode 0x0A11 = .ok (.rdt 0x11) ∧ decode 0x0B00 = .ok .rds ∧ decode 0x0B01 = .ok .rdil ∧
    decode 0x0B02 = .ok .rdol ∧ decode 0x0BFF = .error .ctrlReg := by decide
theorem test_decode_unassigned :
    decode 0x0600 = .error .opUnassigned ∧ decode 0x07FF = .error .opUnassigned ∧
    decode 0x0C00 = .error .opUnassigned ∧ decode 0x8000 = .error .opUnassigned := by decide
theorem test_encode :
    encode (.push 0x4D) = 0x024D ∧ encode .pad32 = 0x0320 ∧ encode (.rdt 0x11) = 0x0A11 ∧
    encode .rdol = 0x0B02 := by decide
theorem test_decodeTableWord :
    decodeTableWord 16 0x0320 = some .pad32 ∧ decodeTableWord 16 0x0B03 = none := by decide
theorem test_fetch :
    step (State.reset.withFetchWord 16 0x0B01) =
      .next { State.reset with pc := 1, responses := [0x0000] } := rfl

/-! ## One step of each command (95 sections 2.1, 2.3, 2.5, 2.6, 2.8) -/

theorem test_nop : reply (exec .nop base) = some 0x0000 ∧
    see (exec .nop base) State.ilen = some 0 := by decide
theorem test_nop_frozen : reply (exec .nop frozen) = some 0x0100 := by decide
theorem test_clr : reply (exec .clr (pushed (bytes 33))) = some 0x0000 ∧
    see (exec .clr (pushed (bytes 33))) State.ilen = some 0 ∧
    see (exec .clr (pushed (bytes 33))) State.iovf = some false := by decide
theorem test_clr_frozen : reply (exec .clr frozen) = some 0x0100 ∧
    see (exec .clr frozen) State.ilen = some 7 := by decide
theorem test_push : see (exec (.push 0x4D) base) (fun t => readMem t.ibuf 0) = some (some 0x4D) ∧
    see (exec (.push 0x4D) base) State.ilen = some 1 := by decide
theorem test_push_full :
    see (exec (.push 0x20) (pushed (bytes 32))) State.ilen = some 33 ∧
    see (exec (.push 0x20) (pushed (bytes 32))) (fun t => readMem t.ibuf 31) = some (some 0x61) ∧
    see (exec (.push 0x20) (pushed (bytes 33))) State.ilen = some 33 := by decide
theorem test_pad16 :
    see (exec .pad16 (pushed label)) State.obuf = some (memOf paddedLabel) ∧
    see (exec .pad16 (pushed label)) State.olen = some 16 := by decide
theorem test_pad16_boundary :
    see (exec .pad16 (pushed (bytes 15))) (fun t => readMem t.obuf 15) = some (some 0x81) ∧
    see (exec .pad16 (pushed block)) State.obuf = some (memOf block) ∧
    reply (exec .pad16 (pushed (bytes 17))) = some 0x0100 := by decide
theorem test_pad32 :
    see (exec .pad32 (pushed label)) (fun t => readMem t.obuf 7) = some (some 0x80) ∧
    see (exec .pad32 (pushed label)) (fun t => readMem t.obuf 31) = some (some 0x01) ∧
    see (exec .pad32 (pushed label)) (fun t => readMem t.obuf 8) = some (some 0x00) := by decide
theorem test_pad32_boundary :
    see (exec .pad32 (pushed (bytes 31))) (fun t => readMem t.obuf 31) = some (some 0x81) ∧
    reply (exec .pad32 (pushed (bytes 33))) = some 0x0100 := by decide
theorem test_ldv :
    see (exec .ldv (pushed block)) State.value = some 0xefcdab8967452301 ∧
    see (exec .ldv formatted) State.tv = some false := by decide
theorem test_ldv_length :
    reply (exec .ldv base) = some 0x0300 ∧ reply (exec .ldv (pushed (bytes 15))) = some 0x0300 ∧
    reply (exec .ldv (pushed (bytes 17))) = some 0x0300 := by decide
theorem test_word64 :
    word64 [0x01, 0x23, 0x45, 0x67, 0x89, 0xab, 0xcd, 0xef] .be = 0x0123456789abcdef ∧
    word64 [0, 0, 0, 0, 0, 0, 0, 0x80] .le = 0x8000000000000000 ∧
    word64 [0xab, 0, 0, 0, 0, 0, 0, 0] .be = 0xab00000000000000 := by decide
theorem test_fmt : see (exec .fmt loaded) State.text = some (memOf valueText) ∧
    reply (exec .fmt base) = some 0x0400 := by decide
theorem test_textOf :
    textOf 0x00000000000a0b0c =
      [0x30, 0x78, 0x30, 0x30, 0x30, 0x30, 0x30, 0x30, 0x30, 0x30, 0x30, 0x30, 0x30, 0x61, 0x30,
        0x62, 0x30, 0x63] := by decide
theorem test_rdo :
    reply (exec (.rdo 0) padded16) = some 0x004d ∧ reply (exec (.rdo 7) padded16) = some 0x0080 ∧
    reply (exec (.rdo 15) padded16) = some 0x0001 := by decide
theorem test_rdo_faults :
    reply (exec (.rdo 16) padded16) = some 0x0500 ∧
    reply (exec (.rdo 200) base) = some 0x0400 := by decide
theorem test_rdv :
    reply (exec (.rdv 0) loaded) = some 0x00ef ∧ reply (exec (.rdv 7) loaded) = some 0x0001 := by
  decide
theorem test_rdv_faults :
    reply (exec (.rdv 8) loaded) = some 0x0500 ∧ reply (exec (.rdv 0) base) = some 0x0400 := by
  decide
theorem test_rdt :
    reply (exec (.rdt 0) formatted) = some 0x0030 ∧
    reply (exec (.rdt 2) formatted) = some 0x0065 ∧
    reply (exec (.rdt 17) formatted) = some 0x0031 := by decide
theorem test_rdt_faults :
    reply (exec (.rdt 18) formatted) = some 0x0500 ∧
    reply (exec (.rdt 0) loaded) = some 0x0400 := by decide
theorem test_rds :
    reply (exec .rds loaded) = some 0x0004 ∧ reply (exec .rds formatted) = some 0x000c ∧
    reply (exec .rds padded16) = some 0x0001 := by decide
theorem test_rds_lengths :
    reply (exec .rds padded32) = some 0x0003 ∧
    reply (exec .rds (pushed (bytes 33))) = some 0x0010 := by decide
theorem test_rdil :
    reply (exec .rdil padded16) = some 0x0007 ∧
    reply (exec .rdil (pushed (bytes 33))) = some 0x0021 := by decide
theorem test_rdol :
    reply (exec .rdol padded16) = some 0x0010 ∧ reply (exec .rdol base) = some 0x0000 := by decide
theorem test_illegal_word :
    reply (transact 0x0001 base) = some 0x0200 ∧ reply (transact 0xFFFF frozen) = some 0x0100 := by
  decide
theorem test_reset_event :
    see (step { frozen with pending := [.reset] }) State.fcode = some 0x00 ∧
    see (step { frozen with pending := [.reset] }) State.ilen = some 0 := by decide

/-! ## The reference functions and the host's notation -/

/-- D-P13 to D-P16, and that a target length of 0 has no result. -/
theorem test_pad_reference :
    pad [] 1 = .ok [0x81] ∧ pad [] 2 = .ok [0x80, 0x01] ∧ pad [0xaa] 2 = .ok [0xaa, 0x81] ∧
    pad [0xaa] 3 = .ok [0xaa, 0x80, 0x01] ∧ pad [] 0 = .error .targetNotPositive := by decide

/-- R80, R81: an alternative spelling, a decimal operand with a comment, a
pseudo-instruction, a text with a blank, a line that is none. -/
theorem test_assembler :
    assembleLine "PAD 16".toList = some [.pad16] ∧
    assembleLine "RDO 15 ; last".toList = some [.rdo 15] ∧
    assembleLine "PUSHB 0x4d 89".toList = some [.push 0x4d, .push 0x59] ∧
    assembleLine "PUSHS \"A ;\"".toList = some [.push 0x41, .push 0x20, .push 0x3b] ∧
    assembleLine "PUSH 256".toList = none := by decide

theorem test_listing : listing (.push 0x4d) = "024d  PUSH 0x4d".toList := by decide

/-! ## Witnesses: for each obligation with hypotheses, a case that meets them; where it has
several clauses, one for each, at the values where they meet -/

theorem witness_DecodedWordIsItsCommandsEncoding : decode 0x0AFF = .ok (.rdt 0xFF) := by decide

theorem witness_DecoderFollowsTheOpcodeMap :
    (0x0000 : Word) &&& 0xFFFF = 0x0000 ∧ (0x0100 : Word) &&& 0xFFFF = 0x0100 ∧
    (0x02FF : Word) &&& 0xFF00 = 0x0200 ∧ (0x0310 : Word) &&& 0xFFFF = 0x0310 ∧
    (0x0320 : Word) &&& 0xFFFF = 0x0320 ∧ (0x0400 : Word) &&& 0xFFFF = 0x0400 ∧
    (0x0500 : Word) &&& 0xFFFF = 0x0500 ∧ (0x0800 : Word) &&& 0xFF00 = 0x0800 ∧
    (0x09FF : Word) &&& 0xFF00 = 0x0900 ∧ (0x0A12 : Word) &&& 0xFF00 = 0x0A00 ∧
    (0x0B00 : Word) &&& 0xFFFF = 0x0B00 ∧ (0x0B01 : Word) &&& 0xFFFF = 0x0B01 ∧
    (0x0B02 : Word) &&& 0xFFFF = 0x0B02 := by decide

theorem witness_word_of_no_row : ∀ r ∈ tableRows, (0x0B03 : Word) &&& r.1 ≠ r.2 := by
  simp [tableRows]

theorem witness_DecoderRejectsExactlyTheListedWords :
    illegalRow 0x00FF = some .nopArg ∧ illegalRow 0x0B03 = some .ctrlReg ∧
    illegalRow 0x0C00 = some .opUnassigned := by decide

theorem witness_StepRunsTheDecodedCommand :
    (base.withFetchWord 16 0x0310).pending = [.command 0x0310] ∧
    decode 0x0310 = .ok .pad16 := by decide

/-- A frozen engine, an illegal word, a legal word. -/
theorem witness_DecodeCheckStandsBetweenFreezeAndCommand :
    (frozen.withFetchWord 16 0x0000).pending = [.command 0x0000] ∧ frozen.fcode ≠ 0x00 ∧
    (base.withFetchWord 16 0x0B03).pending = [.command 0x0B03] ∧ base.fcode = 0x00 ∧
    ((0xFFFF, 0x0310) ∈ tableRows ∧ (0x0310 : Word) &&& 0xFFFF = 0x0310) := by
  unfold tableRows
  decide

theorem witness_ResetEventRestoresTheResetState :
    ({ frozen with pending := [.reset] } : State).pending = [.reset] := by decide

/-- An idle step, a command that faults, a reset event: each from a state that meets the
invariant. -/
theorem witness_EveryStepKeepsTheInvariant :
    (base.Inv ∧ (see (step base) State.pc).isSome = true) ∧
    ((padded16.withFetchWord 16 0x0810).Inv ∧
      (see (step (padded16.withFetchWord 16 0x0810)) State.pc).isSome = true) ∧
    ((frozen.withPending [.reset]).Inv ∧
      (see (step (frozen.withPending [.reset])) State.pc).isSome = true) :=
  ⟨by decide, by decide, by decide⟩

theorem witness_invariant_states :
    (pushed (bytes 33)).EngineInv ∧ padded16.EngineInv ∧ padded32.EngineInv ∧
    loaded.EngineInv ∧ formatted.EngineInv ∧ frozen.EngineInv :=
  ⟨by decide, by decide, by decide, by decide, by decide, by decide⟩

theorem witness_NoStepStopsWhereTheInvariantHolds :
    (formatted.withFetchWord 16 0x0A11).EngineInv := by decide

/-- The last defined cell of each buffer and the first undefined one. -/
theorem witness_DefinedCellsAreTheSpecifiedOnes :
    formatted.EngineInv ∧ padded16.EngineInv ∧
    readCell .ibuf 15 formatted = .ok 0xfe ∧
    readCell .ibuf 16 formatted = .error (.undefinedCell .ibuf 16) ∧
    readCell .obuf 15 padded16 = .ok 0x01 ∧
    readCell .obuf 16 padded16 = .error (.undefinedCell .obuf 16) ∧
    readCell .text 17 formatted = .ok 0x31 ∧
    readCell .text 18 formatted = .error (.noSuchCell .text 18) := by decide

theorem witness_EveryCommandGetsOneResponse :
    reply (transact 0x0908 loaded) = some 0x0500 ∧ reply (transact 0x0907 loaded) = some 0x0001 ∧
    returnsNoData .fmt ∧ reply (transact 0x0500 loaded) = some 0x0000 :=
  ⟨by decide, by decide, trivial, by decide⟩

theorem witness_FrozenEngineRefusesEveryCommand : frozen.fcode ≠ 0x00 := by decide

theorem witness_FaultWritesOnlyTheFaultCode :
    base.fcode = 0x00 ∧ see (transact 0x0500 base) State.fcode = some 0x04 := by decide

/-- Each condition of R171 to R175 on both sides. -/
theorem witness_FaultsAreRaisedExactlyAsListed :
    faultOf 0x0310 (pushed (bytes 17)) = 0x01 ∧ faultOf 0x0310 (pushed (bytes 16)) = 0x00 ∧
    faultOf 0x0320 (pushed (bytes 33)) = 0x01 ∧ faultOf 0x0320 (pushed (bytes 32)) = 0x00 ∧
    faultOf 0x0400 (pushed (bytes 15)) = 0x03 ∧ faultOf 0x0400 (pushed (bytes 16)) = 0x00 ∧
    faultOf 0x0810 padded16 = 0x05 ∧ faultOf 0x080F padded16 = 0x00 ∧
    faultOf 0x0A12 formatted = 0x05 ∧ faultOf 0x0A00 loaded = 0x04 ∧
    (pushed (bytes 17)).EngineInv ∧ (pushed (bytes 17)).fcode = 0x00 := by decide

theorem witness_NopDoesNothing :
    base.fcode = 0x00 ∧ frozen.fcode ≠ 0x00 ∧ 1 ≤ (0x00FF : Word).toNat ∧
    (0x00FF : Word).toNat ≤ 0xFF := by decide

theorem witness_ClrEmptiesTheInputOnly :
    (pushed (bytes 33)).fcode = 0x00 ∧ base.fcode = 0x00 ∧ base.EngineInv ∧ base.ilen = 0 := by
  decide

theorem witness_PushAppendsOneByte :
    (pushed (bytes 31)).fcode = 0x00 ∧ (pushed (bytes 31)).ilen.toNat < 32 ∧
    (pushed (bytes 32)).fcode = 0x00 ∧ (pushed (bytes 32)).ilen.toNat = 32 ∧
    (pushed (bytes 33)).fcode = 0x00 ∧ 32 < (pushed (bytes 33)).ilen.toNat := by decide

/-- Each case of the closed form at its boundary, `t = 16`. -/
theorem witness_PadFollowsItsCases :
    0 < 16 ∧ (bytes 14).length < 16 ∧ (bytes 15).length + 1 = 16 ∧ (bytes 16).length = 16 ∧
    16 < (bytes 17).length := by decide

theorem witness_PadHasTheClosedForm :
    0 < 16 ∧ (bytes 14).length + 2 ≤ 16 ∧ (bytes 15).length + 1 = 16 ∧
    (bytes 16).length = 16 ∧ 16 < (bytes 17).length := by decide

/-- D-P6 and the collision under it (R112). -/
theorem witness_PadCollidesOnlyAtTheTargetLength :
    (bytes 15).length + 1 = 16 ∧ pad (bytes 15) 16 = .ok (bytes 15 ++ [0x81]) ∧
    (bytes 16).length ≤ 16 ∧ bytes 15 ≠ bytes 15 ++ [0x81] ∧
    pad (bytes 15) 16 = pad (bytes 15 ++ [0x81]) 16 := by decide

theorem witness_Pad16PadsTheInput :
    (pushed (bytes 16)).EngineInv ∧ (pushed (bytes 16)).fcode = 0x00 ∧
    ¬ 16 < (pushed (bytes 16)).ilen.toNat ∧ (pushed (bytes 17)).EngineInv ∧
    (pushed (bytes 17)).fcode = 0x00 ∧ 16 < (pushed (bytes 17)).ilen.toNat := by decide

theorem witness_Pad32PadsTheInput :
    (pushed (bytes 32)).EngineInv ∧ (pushed (bytes 32)).fcode = 0x00 ∧
    ¬ 32 < (pushed (bytes 32)).ilen.toNat ∧ (pushed (bytes 33)).EngineInv ∧
    (pushed (bytes 33)).fcode = 0x00 ∧ 32 < (pushed (bytes 33)).ilen.toNat := by decide

theorem witness_Word64IsThePositionalSum :
    (bytes 8).length = 8 ∧ word64 (bytes 8) .be = 0x6161616161616161 := by decide

theorem witness_ByteExtractorIsMostSignificantFirst :
    0 < 8 ∧ 7 < 8 ∧ beByte 0xefcdab8967452301 0 = 0xef ∧ beByte 0xefcdab8967452301 7 = 0x01 := by
  decide

theorem witness_LdvLoadsTheFirstEightBytes :
    (pushed block).EngineInv ∧ (pushed block).fcode = 0x00 ∧ (pushed block).ilen.toNat = 16 ∧
    (pushed (bytes 15)).EngineInv ∧ (pushed (bytes 15)).fcode = 0x00 ∧
    (pushed (bytes 15)).ilen.toNat ≠ 16 ∧ (pushed (bytes 17)).ilen.toNat ≠ 16 := by decide

/-- D-V1 and D-V2. -/
theorem witness_LdvFollowsTheWordOrderParameter :
    (pushed block).EngineInv ∧ (pushed block).fcode = 0x00 ∧ (pushed block).ilen.toNat = 16 ∧
    see (loadValue .be (pushed block)) State.value = some 0x0123456789abcdef := by decide

theorem witness_TextHasPrefixAndSixteenDigits :
    (0x9 : BitVec 4).toNat ≤ 9 ∧ ¬ (0xA : BitVec 4).toNat ≤ 9 ∧ hexdigit 0x9 = 0x39 ∧
    hexdigit 0xA = 0x61 ∧ 0 < 16 ∧ 15 < 16 := by decide

theorem witness_TextDeterminesTheValue :
    textOf 0xab = textOf 0x00000000000000ab ∧ (0x62 : Byte) ∈ textOf 0xab := by decide

theorem witness_FmtWritesTheTextOfTheValue :
    base.fcode = 0x00 ∧ base.vv = false ∧ loaded.fcode = 0x00 ∧ loaded.vv = true := by decide

theorem witness_RdoReturnsAByteOfTheOutput :
    base.EngineInv ∧ base.fcode = 0x00 ∧ base.olen.toNat = 0 ∧ padded16.EngineInv ∧
    padded16.fcode = 0x00 ∧ padded16.olen.toNat ≤ (16 : Byte).toNat ∧
    ¬ padded16.olen.toNat ≤ (15 : Byte).toNat := by decide

theorem witness_RdvReturnsAByteOfTheValue :
    base.fcode = 0x00 ∧ base.vv = false ∧ loaded.fcode = 0x00 ∧ loaded.vv = true ∧
    8 ≤ (8 : Byte).toNat ∧ ¬ 8 ≤ (7 : Byte).toNat := by decide

theorem witness_RdtReturnsACharacterOfTheText :
    loaded.EngineInv ∧ loaded.fcode = 0x00 ∧ loaded.tv = false ∧ formatted.EngineInv ∧
    formatted.fcode = 0x00 ∧ formatted.tv = true ∧ 18 ≤ (18 : Byte).toNat ∧
    ¬ 18 ≤ (17 : Byte).toNat := by decide

theorem witness_RdsReturnsTheStatusByte :
    padded32.fcode = 0x00 ∧ padded32.olen.toNat = 32 ∧ formatted.fcode = 0x00 ∧
    formatted.EngineInv ∧ formatted.tv = true := by decide

theorem witness_RdilAndRdolReturnTheLengths : padded16.fcode = 0x00 := by decide

/-- One command that changes each of the four storages. -/
theorem witness_StoragesAreWrittenByTheirCommandsOnly :
    see (exec (.push 1) base) State.ilen ≠ some base.ilen ∧
    see (exec .pad16 base) State.olen ≠ some base.olen ∧
    see (exec .ldv (pushed block)) State.vv ≠ some (pushed block).vv ∧
    see (exec .fmt loaded) State.tv ≠ some loaded.tv := by decide

/-- Each flag set, and each flag that has a clearing command cleared. -/
theorem witness_FlagsAreSetAndClearedAsTheTableSays :
    (pushed block).vv = false ∧ see (exec .ldv (pushed block)) State.vv = some true ∧
    loaded.tv = false ∧ see (exec .fmt loaded) State.tv = some true ∧
    formatted.tv = true ∧ see (exec .ldv formatted) State.tv = some false ∧
    base.ov = false ∧ see (exec .pad32 base) State.ov = some true ∧
    (pushed (bytes 32)).iovf = false ∧
    see (exec (.push 0) (pushed (bytes 32))) State.iovf = some true ∧
    (pushed (bytes 33)).iovf = true ∧
    see (exec .clr (pushed (bytes 33))) State.iovf = some false := by decide

theorem witness_CommandsAreIdempotentAsListed :
    see (exec (.rdo 15) padded16) State.fcode = some 0x00 ∧ returnsData (.rdo 15) ∧
    see (exec .pad16 padded16) State.fcode = some 0x00 ∧
    see (exec (.push 0) (pushed (bytes 32))) State.fcode = some 0x00 ∧
    (pushed (bytes 32)).ilen.toNat < 33 :=
  ⟨by decide, fun h => h, by decide, by decide, by decide⟩

/-- The input lengths at which the cases of `pad`, `LDV` and the counter meet. -/
theorem witness_EngineActsOnTheWholePushedSequence :
    HoldsInput (pushed (bytes 15)) (bytes 15) ∧ HoldsInput (pushed (bytes 16)) (bytes 16) ∧
    HoldsInput (pushed (bytes 17)) (bytes 17) ∧ HoldsInput (pushed (bytes 32)) (bytes 32) ∧
    HoldsInput (pushed (bytes 40)) (bytes 40) ∧ (pushed (bytes 40)).fcode = 0x00 := by
  unfold HoldsInput
  decide

theorem witness_HostObtainsThePaddedInput :
    HoldsInput (pushed (bytes 16)) (bytes 16) ∧ (bytes 16).length ≤ 16 ∧
    HoldsInput (pushed (bytes 32)) (bytes 32) ∧ (bytes 32).length ≤ 32 ∧
    (pushed (bytes 16)).fcode = 0x00 ∧ (pushed (bytes 32)).fcode = 0x00 := by
  unfold HoldsInput
  decide

theorem witness_HostObtainsTheValueAndItsText :
    HoldsInput (pushed block) block ∧ (pushed block).fcode = 0x00 ∧ block.length = 16 := by
  unfold HoldsInput
  decide

/-- Two different values of `VALUE` while `VV` is 0. -/
theorem witness_UndefinedValueIsNeverObserved :
    sameDefined padded16 { padded16 with value := 0xefcdab8967452301 } ∧
    padded16.value ≠ 0xefcdab8967452301 ∧
    reply (transact 0x0900 padded16) = some 0x0400 := by
  unfold sameDefined
  decide

/-- The ports with the engine at `s` and the handshake at `ph`, nothing presented. -/
def ports (s : State) (ph : Phase) : PortState := ⟨s, ph, none, [], 0⟩

/-- An accepting edge, an edge out of reset, an idle edge without a command, a delivering
edge, a response not taken. -/
theorem witness_PortsHoldOneCommandAtATime :
    (steady ⟨false, true, 0x0000, false⟩ (ports base .idle) = true ∧
      accepts ⟨false, true, 0x0000, false⟩ (ports base .idle) = true) ∧
    (steady ⟨false, true, 0x0000, false⟩ (ports base .held) = true ∧
      (ports base .held).phase = .held) ∧
    accepts ⟨false, false, 0x0000, false⟩ (ports base .idle) = false ∧
    delivers ⟨false, false, 0x0000, true⟩ (ports base .answering) = true ∧
    (portOut (ports base (.busy 0x0000 2))).cmdReady = false ∧
    delivers ⟨false, false, 0x0000, true⟩ (ports base (.busy 0x0000 2)) = false ∧
    (portOut (ports base .answering)).rspValid = true ∧
    delivers ⟨false, false, 0x0000, false⟩ (ports base .answering) = false := by decide

theorem witness_PortsHoldOneCommandAtATime_edge :
    clockEdge ⟨false, false, 0x0000, true⟩ (ports base (.busy 0x0000 2)) =
      .next ⟨base, .busy 0x0000 1, none, [], 1⟩ := rfl

/-- From the launch, one edge without reset makes the engine ready (R192). -/
theorem test_launch :
    clockEdge ⟨false, true, 0x0000, true⟩ PortState.launch =
      .next ⟨State.reset, .idle, some 0x0000, [], 1⟩ := rfl

/-- A word presented to a busy engine, then changed; kept; and withdrawn. -/
theorem witness_OnlyASteadyHostHasAMove :
    clockEdge ⟨false, true, 0x0100, true⟩ (ports base (.busy 0x0000 2)) =
      .next ⟨base, .busy 0x0000 1, some 0x0100, [], 1⟩ ∧
    steady ⟨false, true, 0x0200, true⟩ ⟨base, .busy 0x0000 1, some 0x0100, [], 1⟩ = false ∧
    steady ⟨false, true, 0x0100, true⟩ ⟨base, .busy 0x0000 1, some 0x0100, [], 1⟩ = true ∧
    steady ⟨false, false, 0x0200, true⟩ ⟨base, .busy 0x0000 1, some 0x0100, [], 1⟩ = true ∧
    base.EngineInv :=
  ⟨rfl, by decide, by decide, by decide, by decide⟩

theorem witness_ResetEdgeHasPriority :
    (⟨true, true, 0x0000, true⟩ : PortIn).rst = true ∧
    steady ⟨true, true, 0x0000, true⟩ (ports frozen (.busy 0x0000 2)) = true ∧
    frozen.fcode ≠ 0x00 ∧
    see (step { frozen with pending := [.reset] }) State.fcode ≠ some frozen.fcode := by decide

theorem witness_ResetEdgeHasPriority_edge :
    clockEdge ⟨false, false, 0x0000, true⟩ (ports frozen .answering) =
      .next ⟨frozen, .idle, none, [], 1⟩ := rfl

/-- Edges without reset and without a command, as many as the latency says. -/
theorem witness_AcceptedCommandIsAnsweredWithinItsLatency :
    let inp : PortIn := ⟨false, true, 0x0000, false⟩
    let p := ports base .idle
    let later := List.replicate (latencyOf inp p) (⟨false, false, 0x0000, false⟩ : PortIn)
    p.engine.EngineInv ∧ accepts inp p = true ∧ steady inp p = true ∧
      (∀ x ∈ later, x.rst = false) ∧ keepsWord later ∧ later.length = latencyOf inp p := by
  refine ⟨by decide, by decide, by decide, fun _ h => by rw [List.eq_of_mem_replicate h], ?_,
    List.length_replicate⟩
  generalize latencyOf _ _ = n
  induction n with
  | zero => trivial
  | succ n ih =>
    cases n with
    | zero => trivial
    | succ n => exact ⟨fun h => (by cases h), ih⟩

/-- The last edge of a command inside, and an edge with reset. -/
theorem witness_ClockEdgesRefineTransactions :
    clockEdge ⟨false, false, 0x0000, false⟩ (ports base (.busy 0x0000 1)) =
      .next ⟨{ base with pc := 1, responses := [0x0000] }, .answering, none, [], 1⟩ ∧
    clockEdge ⟨true, false, 0x0000, false⟩ (ports base .idle) =
      .next ⟨State.resetAt 1, .held, none, [], 1⟩ :=
  ⟨rfl, rfl⟩

/-- The first and last character accepted, and one on each side of them. -/
theorem witness_PseudoInstructionsExpandAsListed :
    expand (.pushs [' ', '~']) = some [.push 0x20, .push 0x7E] ∧
    expand (.pushs [Char.ofNat 0x1F]) = none ∧ expand (.pushs [Char.ofNat 0x7F]) = none ∧
    expand (.rdoall 17) = none := by decide

/-- Both failures of the length check at their bounds, and a failing encoding. -/
theorem witness_DeriveFailsExactlyAsTheSourceSays :
    (fun _ => none : List Char → Option (List Byte)) [] = none ∧
    (bytes 32).length ≤ 32 ∧ (bytes 16).length ≤ 16 ∧ 32 < (bytes 33).length ∧
    16 < (bytes 17).length := by decide

/-- A cipher that gives the block back. -/
def sameBlock : Cipher := ⟨fun _ block => block, fun _ _ _ h => h⟩

/-- The reset state with a number for `VALUE`, and each of the three results. -/
theorem witness_DeriveSequenceObtainsDerive :
    HoldsInput base [] ∧ base.fcode = 0x00 ∧
    (∃ c, derive (fun _ : List Char => some label) sameBlock .le [] [] = .ok c) ∧
    derive (fun _ : List Char => none) sameBlock .le [] [] = .error .invalidEncoding ∧
    derive (fun _ : List Char => some (bytes 17)) sameBlock .le [] [] = .error .inputTooLong :=
  ⟨⟨rfl, rfl⟩, by decide, ⟨_, rfl⟩, rfl, rfl⟩

/-- The command words of R163's three parts, from the programs P2 and P3. -/
theorem test_derive_words :
    (keyCommands [0x73, 0x65]).map encode = [0x0273, 0x0265, 0x0320] ∧
    (labelCommands [0x4d, 0x59]).map encode = [0x0100, 0x024d, 0x0259, 0x0310] ∧
    (blockCommands [0x01]).map encode = [0x0100, 0x0201, 0x0400, 0x0500] := by decide

/-- A fault on a response ends the sequence with its code (program P4). -/
theorem test_derive_stops_at_a_fault :
    sendThenRead [.pad16] (readAll .rdo 16) (pushed (bytes 17)) =
      .error (.response 0x01
        { pushed (bytes 17) with fcode := 0x01, pc := 1, responses := [0x0100] }) := by
  decide

end Sys2Proof.Tests
end

/-! Every command word is answered by exactly one response (spec/10_state.md R37,
spec/30_encoding.md R71): each way a command can end delivers one word, and an accepted
word ends in one of these ways. -/

namespace Sys2Proof.Machine

open Sys2Proof.Claims

/-- The state `t` is `s` after exactly one response `{FCODE, d}`, the data byte 0x00 in a
frozen engine, the host's side otherwise as before. -/
structure AnsweredOnce (s t : State) (d : Byte) : Prop where
  responses : t.responses = s.responses ++ [responseWord t.fcode d]
  data : t.fcode ≠ 0x00 → d = 0x00
  pc : t.pc = s.pc
  pending : t.pending = s.pending
  resets : t.resets = s.resets

/-- A refused command (60_exceptions R177). -/
theorem answeredOnce_refused (s : State) :
    AnsweredOnce s (s.answer (responseWord s.fcode 0x00)) 0x00 where
  responses := rfl
  data := fun _ => rfl
  pc := rfl
  pending := rfl
  resets := rfl

/-- A command that takes a fault (60_exceptions R176). -/
theorem answeredOnce_faulted (c : Byte) (s : State) :
    AnsweredOnce s ((s.setFcode c).answer (responseWord c 0x00)) 0x00 where
  responses := rfl
  data := fun _ => rfl
  pc := rfl
  pending := rfl
  resets := rfl

/-- A command that completes (00_scope R12). -/
theorem answeredOnce_completed {i : Instr} {s u : State} {d : Byte} (hf : s.fcode = 0)
    (h : Effect i s d u) : AnsweredOnce s (u.answer (responseWord 0x00 d)) d := by
  obtain ⟨hfcode, hresponses, hpc, hpending, hresets⟩ := effect_keeps h
  have hu : u.fcode = 0 := hfcode.trans hf
  exact {
    responses := by simp [hresponses, hu]
    data := fun hne => absurd hu hne
    pc := hpc
    pending := hpending
    resets := hresets }

/-- A command that returns no data completes with the data byte 0x00. -/
theorem data_zero_of_returnsNoData {i : Instr} {s u : State} {d : Byte} (h : Effect i s d u)
    (hi : returnsNoData i) : d = 0x00 := by
  cases i with
  | nop | clr | push | pad16 | pad32 | ldv | fmt => exact h.1
  | rdo | rdv | rdt | rds | rdil | rdol => exact hi.elim

/-- Every command is answered once, by the byte 0x00 where it returns no data. -/
theorem exec_answeredOnce {i : Instr} {s t : State} (h : exec i s = .next t) :
    ∃ d, AnsweredOnce s t d ∧ (returnsNoData i → d = 0x00) := by
  rcases exec_cases i s t h with ⟨-, rfl⟩ | ⟨-, c, -, rfl⟩ | ⟨hf, d, u, he, rfl⟩
  · exact ⟨_, answeredOnce_refused s, fun _ => rfl⟩
  · exact ⟨_, answeredOnce_faulted (codeOf c) s, fun _ => rfl⟩
  · exact ⟨d, answeredOnce_completed hf he, data_zero_of_returnsNoData he⟩

/-- Every command word is answered once from the state that accepts it, whether or not it
selects a row of the opcode map. -/
theorem transact_answeredOnce {w : Word} {s t : State} (h : transact w s = .next t) :
    ∃ d, AnsweredOnce s.accept t d ∧ ∀ i, decode w = .ok i → returnsNoData i → d = 0x00 := by
  rcases transact_cases w s t h with ⟨i, hi, he⟩ | ⟨-, -, -, rfl⟩ | ⟨-, -, -, rfl⟩
  · obtain ⟨d, hd, hzero⟩ := exec_answeredOnce he
    refine ⟨d, hd, fun j hj hn => hzero ?_⟩
    obtain rfl : i = j := Except.ok.inj (hi.symm.trans hj)
    exact hn
  · exact ⟨_, answeredOnce_faulted 0x02 s.accept, fun _ _ _ => rfl⟩
  · exact ⟨_, answeredOnce_refused s.accept, fun _ _ _ => rfl⟩

/-- Settles O15, by the ways a transaction can end. -/
theorem everyCommandGetsOneResponse : Obligations.EveryCommandGetsOneResponse := by
  intro w s t h
  obtain ⟨d, hd, hzero⟩ := transact_answeredOnce h
  exact ⟨d, hd.responses, hd.data, hzero, hd.pc, hd.pending, hd.resets⟩

end Sys2Proof.Machine

/-! Which command writes which storage (spec/20_memory.md R60, R51): a completed command
makes at most one of the named writes, and each write leaves the other storages alone. -/

namespace Sys2Proof.Machine

open Sys2Proof.Claims

/-- `PUSH` writes `IBUF` and `ILEN` alone of the four storages. -/
theorem pushInput_frame (b : Byte) (s : State) :
    (pushInput b s).obuf = s.obuf ∧ (pushInput b s).olen = s.olen ∧
    (pushInput b s).value = s.value ∧ (pushInput b s).vv = s.vv ∧
    (pushInput b s).text = s.text ∧ (pushInput b s).tv = s.tv := by
  unfold pushInput
  split
  · simp
  · split <;> simp

/-- The one write a completed command makes, by command; the others make none. -/
theorem effect_write {i : Instr} {s u : State} {d : Byte} (h : Effect i s d u) :
    (i = .clr ∧ u = s.clearInput) ∨
    (∃ b, i = .push b ∧ u = pushInput b s) ∨
    ((i = .pad16 ∨ i = .pad32) ∧ ∃ out n, u = s.setOutput out n) ∨
    (i = .ldv ∧ ∃ v, u = s.setValue v) ∨
    (i = .fmt ∧ ∃ t, u = s.setText t) ∨
    u = s := by
  cases i with
  | clr => exact .inl ⟨rfl, h.2⟩
  | push b => exact .inr (.inl ⟨b, rfl, h.2⟩)
  | pad16 =>
    obtain ⟨-, -, _, -, hu⟩ := h
    exact .inr (.inr (.inl ⟨.inl rfl, _, _, hu⟩))
  | pad32 =>
    obtain ⟨-, -, _, -, hu⟩ := h
    exact .inr (.inr (.inl ⟨.inr rfl, _, _, hu⟩))
  | ldv =>
    obtain ⟨-, -, _, -, hu⟩ := h
    exact .inr (.inr (.inr (.inl ⟨rfl, _, hu⟩)))
  | fmt => exact .inr (.inr (.inr (.inr (.inl ⟨rfl, _, h.2.2⟩))))
  | nop | rds | rdil | rdol => exact .inr (.inr (.inr (.inr (.inr h.2))))
  | rdo | rdv | rdt => exact .inr (.inr (.inr (.inr (.inr h.2.2.2))))

/-- From `s` to `t` each storage differs only if `i` is one of its writers (R51). -/
structure OnlyWritersChange (i : Instr) (s t : State) : Prop where
  input : t.ibuf ≠ s.ibuf ∨ t.ilen ≠ s.ilen → i = .clr ∨ ∃ b, i = .push b
  output : t.obuf ≠ s.obuf ∨ t.olen ≠ s.olen → i = .pad16 ∨ i = .pad32
  value : t.value ≠ s.value ∨ t.vv ≠ s.vv → i = .ldv
  text : t.text ≠ s.text ∨ t.tv ≠ s.tv → i = .ldv ∨ i = .fmt

/-- A response is delivered outside the four storages. -/
theorem OnlyWritersChange.answer {i : Instr} {s t : State} (h : OnlyWritersChange i s t)
    (r : Word) : OnlyWritersChange i s (t.answer r) :=
  ⟨h.input, h.output, h.value, h.text⟩

/-- Taking a fault writes `FCODE`, none of the four storages (60_exceptions R176). -/
theorem OnlyWritersChange.setFcode {i : Instr} {s t : State} (h : OnlyWritersChange i s t)
    (c : Byte) : OnlyWritersChange i s (t.setFcode c) :=
  ⟨h.input, h.output, h.value, h.text⟩

theorem OnlyWritersChange.refl (i : Instr) (s : State) : OnlyWritersChange i s s := by
  constructor <;> simp

/-- A command that completes writes its own storages only. -/
theorem effect_onlyWritersChange {i : Instr} {s u : State} {d : Byte} (h : Effect i s d u) :
    OnlyWritersChange i s u := by
  rcases effect_write h with ⟨rfl, rfl⟩ | ⟨b, rfl, rfl⟩ | ⟨hi, out, n, rfl⟩ | ⟨rfl, v, rfl⟩ |
    ⟨rfl, t, rfl⟩ | rfl
  · constructor <;> simp
  · obtain ⟨hobuf, holen, hvalue, hvv, htext, htv⟩ := pushInput_frame b s
    constructor <;> simp [*]
  · constructor <;> simp [hi]
  · constructor <;> simp
  · constructor <;> simp
  · exact .refl i u

/-- A command writes its own storages only, however it ends. -/
theorem exec_onlyWritersChange {i : Instr} {s t : State} (h : exec i s = .next t) :
    OnlyWritersChange i s t := by
  rcases exec_cases i s t h with ⟨-, rfl⟩ | ⟨-, c, -, rfl⟩ | ⟨-, d, u, he, rfl⟩
  · exact (OnlyWritersChange.refl i s).answer _
  · exact ((OnlyWritersChange.refl i s).setFcode _).answer _
  · exact (effect_onlyWritersChange he).answer _

/-- Settles O39, by the one write each command makes. -/
theorem storagesAreWrittenByTheirCommandsOnly :
    Obligations.StoragesAreWrittenByTheirCommandsOnly := by
  intro i s t h
  obtain ⟨hinput, houtput, hvalue, htext⟩ := exec_onlyWritersChange h
  exact ⟨hinput, houtput, hvalue, htext⟩

end Sys2Proof.Machine

/-! The opcode map as a partition of the command words (spec/30_encoding.md R74, R78): its
rows are disjoint, so the first row a word selects is the only one, and the decoder accepts
a word exactly when some row of the table selects it. -/

namespace Sys2Proof

open Sys2Proof.Claims

variable {w : Word}

theorem selects_iff (r : OpRow) (w : Word) : r.selects w = true ↔ w &&& r.mask = r.pattern := by
  simp [OpRow.selects]

/-- Two rows whose matches differ under both masks: no word selects both. -/
def OpRow.Disjoint (r q : OpRow) : Prop := r.pattern &&& q.mask ≠ q.pattern &&& r.mask

/-- "The rows are disjoint" (R74). -/
theorem opcodeMap_disjoint : opcodeMap.Pairwise OpRow.Disjoint := by
  unfold OpRow.Disjoint
  decide

theorem OpRow.Disjoint.not_selects_both {r q : OpRow} (h : r.Disjoint q)
    (hr : r.selects w = true) (hq : q.selects w = true) : False := by
  rw [selects_iff] at hr hq
  apply h
  calc r.pattern &&& q.mask
    _ = w &&& r.mask &&& q.mask := by rw [hr]
    _ = w &&& q.mask &&& r.mask := by rw [BitVec.and_assoc, BitVec.and_comm r.mask,
      ← BitVec.and_assoc]
    _ = q.pattern &&& r.mask := by rw [hq]

/-- In a table of disjoint rows a word decodes to the command of any row it selects. -/
theorem decodeFrom_of_selects {rows : List OpRow} (hd : rows.Pairwise OpRow.Disjoint)
    {r : OpRow} (hr : r ∈ rows) (hs : r.selects w = true) :
    decodeFrom rows w = .ok (r.build (argField w)) := by
  induction rows with
  | nil => cases hr
  | cons q rows ih =>
    obtain ⟨hq, hrows⟩ := List.pairwise_cons.mp hd
    rcases List.mem_cons.mp hr with rfl | hmem
    · simp [decodeFrom, hs]
    · have hn : ¬ q.selects w = true := fun h => (hq r hmem).not_selects_both h hs
      simp [decodeFrom, hn, ih hrows hmem]

/-- A word decodes to the command of any row of the opcode map it selects. -/
theorem decode_of_row (w : Word) :
    ∀ r ∈ opcodeMap, w &&& r.mask = r.pattern → decode w = .ok (r.build (argField w)) :=
  fun r hr h => decodeFrom_of_selects opcodeMap_disjoint hr ((selects_iff r w).mpr h)

/-- The decoder's masks and matches are those of R74's table. -/
theorem tableRows_eq : tableRows = opcodeMap.map fun r => (r.mask, r.pattern) := rfl

theorem decode_error_of_no_row (h : ∀ r ∈ tableRows, w &&& r.1 ≠ r.2) :
    decode w = .error (rejectName w) := by
  rcases decodeFrom_cases opcodeMap w with ⟨r, hr, hs, -⟩ | ⟨-, hd⟩
  · have hmem : (r.mask, r.pattern) ∈ tableRows := tableRows_eq ▸ List.mem_map_of_mem hr
    exact absurd ((selects_iff r w).mp hs) (h _ hmem)
  · exact hd

theorem decode_ok_of_row (h : ∃ r ∈ tableRows, w &&& r.1 = r.2) : ∃ i, decode w = .ok i := by
  obtain ⟨p, hp, hw⟩ := h
  rw [tableRows_eq] at hp
  obtain ⟨r, hr, rfl⟩ := List.mem_map.mp hp
  exact ⟨_, decode_of_row w r hr hw⟩

/-- `ARG` is the low byte of the word (R70). -/
theorem argField_eq_setWidth (w : Word) : argField w = w.setWidth 8 :=
  (BitVec.setWidth_eq_extractLsb' (by decide)).symm

/-- Settles O3, by the disjointness of the opcode map's rows. -/
theorem decoderFollowsTheOpcodeMap : Obligations.DecoderFollowsTheOpcodeMap := by
  intro w
  have h := decode_of_row w
  simp only [opcodeMap, List.cons_append, List.nil_append, List.forall_mem_cons,
    argField_eq_setWidth] at h
  obtain ⟨nop, clr, push, pad16, pad32, ldv, fmt, rdo, rdv, rdt, rds, rdil, rdol, -⟩ := h
  exact ⟨nop, clr, push, pad16, pad32, ldv, fmt, rdo, rdv, rdt, rds, rdil, rdol,
    fun hno => ⟨_, decode_error_of_no_row hno⟩⟩

end Sys2Proof

/-! The order of the checks on a command word (spec/30_encoding.md R78): the freeze, then
the decoder, then the command. -/

namespace Sys2Proof.Machine

open Sys2Proof.Claims

variable {s : State} {w : Word}

/-- A step on a command word is its transaction. -/
theorem step_command {rest : List HostEvent} (h : s.pending = .command w :: rest) :
    step s = transact w (s.withPending rest) := by
  simp [step, h]

theorem transact_of_decode_ok {i : Instr} (h : decode w = .ok i) :
    transact w s = exec i s.accept := by
  simp [transact, h]

theorem transact_of_decode_error {e : IllegalWord} (h : decode w = .error e) :
    transact w s = illegalWord s.accept := by
  simp [transact, h]

/-- A frozen engine refuses every word, legal or not (60_exceptions R177). -/
theorem transact_frozen (w : Word) (hf : s.fcode ≠ 0) : transact w s = refuse s.accept := by
  cases hd : decode w with
  | ok i => rw [transact_of_decode_ok hd, exec_frozen i s.accept hf]; rfl
  | error e => rw [transact_of_decode_error hd]; exact guarded_frozen hf

/-- A running engine takes `IllegalCommand` on a word the decoder rejects. -/
theorem transact_illegal {e : IllegalWord} (hf : s.fcode = 0) (hd : decode w = .error e) :
    transact w s = raise .illegalCommand s.accept := by
  rw [transact_of_decode_error hd]
  exact guarded_running hf

/-- Settles O8, by the three ways a transaction can begin. -/
theorem decodeCheckStandsBetweenFreezeAndCommand :
    Obligations.DecodeCheckStandsBetweenFreezeAndCommand := by
  intro s w rest hp
  rw [step_command hp]
  refine ⟨fun hf => ?frozen, fun hf hno => ?illegal, fun _ hrow => ?legal⟩
  case frozen => exact transact_frozen w hf
  case illegal => exact transact_illegal hf (decode_error_of_no_row hno)
  case legal =>
    obtain ⟨i, hi⟩ := decode_ok_of_row hrow
    exact ⟨i, hi, transact_of_decode_ok hi⟩

end Sys2Proof.Machine

/-! The input-stream commands (spec/40_input_stream.md R90 to R92): what `PUSH` writes in
each of its three cases, what `CLR` leaves, and the words that are these commands. -/

namespace Sys2Proof

/-- `ARG` of a word given by its two fields (30_encoding R70). -/
@[simp] theorem argField_append (op arg : Byte) : argField (op ++ arg) = arg := by
  apply BitVec.eq_of_toNat_eq
  have := arg.isLt
  rw [argField_toNat, append_toNat]
  omega

/-- The word of `PUSH b` selects the row of `PUSH`, and its `ARG` is `b`. -/
theorem decode_encode_push (b : Byte) : decode (encode (.push b)) = .ok (.push b) := by
  have hrow := decode_of_row (encode (.push b)) ⟨0x0200, 0xFF00, .push⟩ (by simp [opcodeMap])
    (Laws.RowMatch.push b)
  simpa [encode, argOf] using hrow

/-- The word of `PUSH b` as the row's match with the operand bits filled in (R74). -/
theorem encode_push_eq_or (b : Byte) : encode (.push b) = 0x0200 ||| b.setWidth 16 := rfl

/-- `OP` 0x00 with a non-zero `ARG` selects no row of the opcode map (30_encoding R76). -/
theorem decode_nop_with_arg {w : Word} (hpos : 1 ≤ w.toNat) (hle : w.toNat ≤ 0xFF) :
    decode w = .error (rejectName w) := by
  rw [decode_eq]
  simp (disch := omega) only [if_neg]

end Sys2Proof

namespace Sys2Proof.Machine

open Sys2Proof.Claims

variable {s : State}

/-! The three cases of `PUSH` (R92), by the input length. -/

theorem pushInput_of_lt (b : Byte) (h : s.ilen.toNat < 32) :
    pushInput b s = s.storeInput b :=
  if_pos h

theorem pushInput_of_eq (b : Byte) (h : s.ilen.toNat = 32) :
    pushInput b s = s.saturateInput := by
  rw [pushInput, if_neg (by simp [h]), if_pos h]

theorem pushInput_of_gt (b : Byte) (h : 32 < s.ilen.toNat) : pushInput b s = s := by
  rw [pushInput, if_neg h.not_gt, if_neg h.ne']

/-- A counter below 32 does not wrap when it counts one byte more. -/
theorem storeInput_ilen_toNat (b : Byte) (h : s.ilen.toNat < 32) :
    (s.storeInput b).ilen.toNat = s.ilen.toNat + 1 := by
  rw [State.storeInput_ilen, BitVec.toNat_add]
  exact Nat.mod_eq_of_lt (by simp; omega)

/-- Settles O21, by the three cases of the input length. -/
theorem pushAppendsOneByte : Obligations.PushAppendsOneByte := by
  intro b s hf
  rw [exec_push hf b]
  refine ⟨encode_push_eq_or b ▸ decode_encode_push b, fun hlt => ?stored,
    fun heq => ?saturated, fun hgt => ?ignored⟩
  case stored =>
    rw [pushInput_of_lt b hlt]
    exact ⟨_, rfl, rfl, storeInput_ilen_toNat b hlt, readMem_writeMem_same _ _ b,
      fun a ha => readMem_writeMem_other _ _ a b ha⟩
  case saturated =>
    rw [pushInput_of_eq b heq]
    rfl
  case ignored =>
    rw [pushInput_of_gt b hgt]
    rfl

/-- Settles O19, by the freeze check and the rows of the decoder. -/
theorem nopDoesNothing : Obligations.NopDoesNothing :=
  ⟨fun _ hf => exec_nop hf, fun s hf => exec_frozen .nop s hf, rfl,
    fun _ hpos hle => ⟨_, decode_nop_with_arg hpos hle⟩⟩

/-- Under the invariant an empty input has no defined cell. -/
theorem ibuf_eq_nil (h : s.EngineInv) (h0 : s.ilen = 0) : s.ibuf = [] := by
  obtain ⟨hmem, hlen⟩ := ibuf_eq h
  have hnil : bytesOf s.ibuf = [] := List.eq_nil_of_length_eq_zero (by simpa [h0] using hlen)
  rw [hmem, hnil]
  rfl

/-- Emptying an empty input changes nothing. -/
theorem clearInput_eq_self (h : s.EngineInv) (h0 : s.ilen = 0) : s.clearInput = s := by
  rw [State.clearInput, ← ibuf_eq_nil h h0, ← h0]

/-- Settles O20, by the one write of `CLR`. -/
theorem clrEmptiesTheInputOnly : Obligations.ClrEmptiesTheInputOnly := by
  refine ⟨rfl, fun s hf => ⟨answered 0x00 s.clearInput, exec_clr hf, rfl, readMem_nil, rfl, ?_⟩⟩
  intro hinv h0
  rw [clearInput_eq_self hinv h0]

end Sys2Proof.Machine

/-! The Padder (spec/41_padder.md R101 to R108): the bytes of `pad` position by position,
their closed form, and what `PAD16` and `PAD32` write. -/

namespace Sys2Proof.Machine

open Sys2Proof.Claims

/-! ## The function `pad` -/

/-- An XOR edit, at every position: 0x00 where nothing is edited. -/
theorem getElem?_xorAt (i : Nat) (m : Byte) (bs : List Byte) (j : Nat) :
    (xorAt i m bs)[j]? = bs[j]?.map (· ^^^ if j = i then m else 0x00) := by
  rw [xorAt, List.getElem?_modify, Option.map_eq_map]
  congr 1
  funext x
  by_cases h : j = i
  · simp [h]
  · simp [h, Ne.symm h]

/-- The byte that padding an input of `n` bytes to `t` puts at position `j`: `FILL` with the
two XOR edits in sequence (R102). -/
def paddingByte (n t j : Nat) : Byte :=
  ((0x00 : Byte) ^^^ (if j = n then 0x80 else 0x00)) ^^^ (if j + 1 = t then 0x01 else 0x00)

/-- The closed form of R106 past the input: 0x81 where the two edits meet (R103), else 0x80,
then 0x00, then 0x01. -/
theorem paddedCell_of_le {n t j : Nat} (f : Nat → Option Byte) (hj : n ≤ j) (hjt : j < t) :
    paddedCell n t f j = some (paddingByte n t j) := by
  rw [paddedCell, if_neg hjt.not_ge, if_neg hj.not_gt, paddingByte]
  by_cases hmark : j = n <;> by_cases hend : j + 1 = t
  · simp [← hmark, hend]
  · simp [← hmark, hend]
  · simp [hmark, hend, show n + 1 ≠ t by omega]
  · simp [hmark, hend, show n + 1 ≠ t by omega]

variable {input : List Byte} {t j : Nat}

/-- Filling leaves the input's own bytes alone: both edits are past them. -/
theorem getElem?_padFill_of_lt (ht : input.length < t) (hj : j < input.length) :
    (padFill input t)[j]? = input[j]? := by
  have hend : j ≠ t - 1 := by omega
  have hmark : j ≠ input.length := by omega
  simp [padFill, getElem?_xorAt, hend, hmark, List.getElem?_append_left hj]

/-- Past the input every position holds the padding byte. -/
theorem getElem?_padFill_of_le (hj : input.length ≤ j) (hjt : j < t) :
    (padFill input t)[j]? = some (paddingByte input.length t j) := by
  have hfill : (input ++ List.replicate (t - input.length) Config.fill)[j]? = some 0x00 := by
    rw [List.getElem?_append_right hj, List.getElem?_replicate, if_pos (by omega)]
  have hend : j = t - 1 ↔ j + 1 = t := by omega
  simp only [padFill, getElem?_xorAt, hfill, Option.map_some, hend, paddingByte]

/-- The closed form of the padded bytes (R106), at every position and past the last. -/
theorem getElem?_padBytes (h : input.length ≤ t) (j : Nat) :
    (padBytes input t)[j]? = paddedCell input.length t (input[·]?) j := by
  rcases lt_or_ge j t with hjt | hjt
  case inr =>
    rw [List.getElem?_eq_none ((padBytes_length input t h).trans_le hjt), paddedCell, if_pos hjt]
  rcases lt_or_ge j input.length with hj | hj
  · rw [paddedCell, if_neg hjt.not_ge, if_pos hj, padBytes]
    split_ifs with heq
    · rfl
    · exact getElem?_padFill_of_lt (by omega) hj
  · rw [paddedCell_of_le _ hj hjt, padBytes, if_neg (by omega), getElem?_padFill_of_le hj hjt]

theorem pad_of_le (h0 : 0 < t) (h : input.length ≤ t) : pad input t = .ok (padBytes input t) := by
  rw [pad, if_neg h0.ne', if_neg h.not_gt]

/-- An input longer than the target length (R104). -/
theorem pad_of_gt (h0 : 0 < t) (h : t < input.length) : pad input t = .error .inputTooLong := by
  rw [pad, if_neg h0.ne', if_pos h]

/-- One byte missing: both markers fall on the one byte that is added (R103). -/
theorem padBytes_of_one_missing (h : input.length + 1 = t) :
    padBytes input t = input ++ [0x81] := by
  apply List.ext_getElem?
  intro j
  rw [getElem?_padBytes (by omega), paddedCell]
  rcases lt_trichotomy j input.length with hlt | rfl | hgt
  · rw [if_neg (by omega), if_pos hlt, List.getElem?_append_left hlt]
  · simp [← h]
  · rw [if_pos (by omega), List.getElem?_eq_none (by simp; omega)]

/-- Settles O22, by the bytes of the filled input at each position. -/
theorem padFollowsItsCases : Obligations.PadFollowsItsCases := by
  refine ⟨fun input t h0 hlt => ?shorter, fun input t h0 heq => ?equal,
    fun input t h0 hone => ?oneMissing, fun input t h0 hgt => pad_of_gt h0 hgt, rfl⟩
  case shorter =>
    have hfill : padBytes input t = padFill input t := if_neg hlt.ne
    rw [pad_of_le h0 hlt.le]
    refine ⟨_, rfl, padBytes_length input t hlt.le, fun j hj => ?_, fun j hj hjt => ?_⟩
    · rw [hfill, getElem?_padFill_of_lt hlt hj]
    · rw [hfill, getElem?_padFill_of_le hj hjt, paddingByte]
  case equal => rw [pad_of_le h0 heq.le, padBytes, if_pos heq]
  case oneMissing => rw [pad_of_le h0 (by omega), padBytes_of_one_missing hone]

/-! ## The commands `PAD16` and `PAD32` -/

variable {s : State}

/-- An input longer than the target takes the fault `InputTooLong` (60_exceptions R171). -/
theorem padTo_of_gt (h : t < s.ilen.toNat) : padTo t s = .next (faulted 0x01 s) := by
  rw [padTo, if_pos h]
  rfl

/-- Under the invariant the cells of `IBUF` below `ILEN` are the bytes of the input. -/
theorem readMem_ibuf (h : s.EngineInv) (j : Nat) : readMem s.ibuf j = (bytesOf s.ibuf)[j]? := by
  exact (congrArg (readMem · j) (ibuf_eq h).1).trans (readMem_memOf _ j)

/-- What `PAD16` and `PAD32` do to a state of the invariant, for any target length that `IBUF`
holds: the fault, or the padded input and the new `OLEN`. -/
theorem padTo_pads (h : s.EngineInv) (ht : t ≤ 32) :
    if t < s.ilen.toNat then padTo t s = .next (faulted 0x01 s)
    else ∃ u, padTo t s = .next u ∧
      u = answered 0x00 { s with obuf := u.obuf, olen := BitVec.ofNat 6 t } ∧
      ∀ j, readMem u.obuf j = paddedCell s.ilen.toNat t (readMem s.ibuf) j := by
  split_ifs with hlong
  · exact padTo_of_gt hlong
  · have hle : s.ilen.toNat ≤ t := not_lt.mp hlong
    have hlen : (bytesOf s.ibuf).length = s.ilen.toNat := by rw [(ibuf_eq h).2]; omega
    have hinput : readMem s.ibuf = ((bytesOf s.ibuf)[·]?) := funext (readMem_ibuf h)
    rw [padTo_of_inv h hle (hle.trans ht)]
    refine ⟨_, rfl, rfl, fun j => ?_⟩
    rw [State.answer_obuf, State.setOutput_obuf, readMem_memOf, getElem?_padBytes (by omega),
      hlen, hinput]

/-- Settles O25, by the common body of the padding commands at target length 16. -/
theorem pad16PadsTheInput : Obligations.Pad16PadsTheInput := by
  refine ⟨rfl, fun s hinv hf => ?_⟩
  rw [exec_pad16 hf]
  exact padTo_pads hinv (by decide)

/-- Settles O26, by the common body of the padding commands at target length 32. -/
theorem pad32PadsTheInput : Obligations.Pad32PadsTheInput := by
  refine ⟨rfl, fun s hinv hf => ?_⟩
  rw [exec_pad32 hf]
  exact padTo_pads hinv (by decide)

end Sys2Proof.Machine

/-! The constant formatter (spec/42_formatter.md R121 to R127): a 64-bit value is its eight
bytes, so both byte orders are read off the bytes; the characters of `text_of` by position;
and what `LDV` and `FMT` write. -/

namespace Sys2Proof.Machine

open Sys2Proof.Claims

/-! ## The bytes of a 64-bit value -/

/-- The bytes of a value, least significant first. -/
def leBytes (v : BitVec 64) : List Byte :=
  (List.range 8).map fun i => v.extractLsb' (8 * i) 8

@[simp] theorem leBytes_length (v : BitVec 64) : (leBytes v).length = 8 := by
  rw [leBytes, List.length_map, List.length_range]

theorem getElem?_leBytes (v : BitVec 64) {i : Nat} (hi : i < 8) :
    (leBytes v)[i]? = some (v.extractLsb' (8 * i) 8) := by
  rw [leBytes, List.getElem?_map, List.getElem?_range hi, Option.map_some]

/-- The bytes from the most significant one on (R124) are those from the least on, reversed. -/
theorem beBytes_eq_reverse (v : BitVec 64) : beBytes v = (leBytes v).reverse := rfl

theorem getElem?_beBytes (v : BitVec 64) {i : Nat} (hi : i < 8) :
    (beBytes v)[i]? = some (beByte v i) := by
  rw [beBytes, List.getElem?_map, List.getElem?_range hi, Option.map_some]

/-- Two values with the same eight bytes are the same: bit `j` stands in byte `j / 8`. -/
theorem eq_of_extract_bytes {v w : BitVec 64}
    (h : ∀ i < 8, v.extractLsb' (8 * i) 8 = w.extractLsb' (8 * i) 8) : v = w := by
  apply BitVec.eq_of_getLsbD_eq
  intro j hj
  have hbit := congrArg (BitVec.getLsbD · (j % 8)) (h (j / 8) (by omega))
  simpa [BitVec.getLsbD_extractLsb', Nat.mod_lt, Nat.div_add_mod] using hbit

/-- The digits of a number in base 256, summed by weight, give its lower part. -/
theorem sum_digits_eq_mod (x n : Nat) :
    ((List.range n).map fun i => x / 256 ^ i % 256 * 256 ^ i).sum = x % 256 ^ n := by
  induction n with
  | zero => simp [Nat.mod_one]
  | succ n ih =>
    rw [List.range_succ, List.map_append, List.sum_append, ih, List.map_singleton,
      List.sum_singleton, Nat.mod_pow_succ, Nat.mul_comm (256 ^ n)]

theorem extract_byte_toNat (v : BitVec 64) (i : Nat) :
    (v.extractLsb' (8 * i) 8).toNat = v.toNat / 256 ^ i % 256 := by
  rw [BitVec.extractLsb'_toNat, Nat.shiftRight_eq_div_pow, Nat.pow_mul]

/-- A value is the sum of its bytes by weight. -/
theorem toNat_eq_sum_bytes (v : BitVec 64) :
    v.toNat = ((List.range 8).map fun i => (v.extractLsb' (8 * i) 8).toNat * 256 ^ i).sum := by
  have hv : v.toNat < 256 ^ 8 := v.isLt
  simp only [extract_byte_toNat]
  rw [sum_digits_eq_mod, Nat.mod_eq_of_lt hv]

/-- Byte `i` of the value assembled in order `LE` is byte `i` of the sequence. -/
theorem extract_word64LE (bs : List Byte) {i : Nat} (hi : i < 8) :
    (word64LE bs).extractLsb' (8 * i) 8 = bs.getD i 0x00 := by
  induction bs generalizing i with
  | nil => simp [word64LE]
  | cons b bs ih =>
    cases i with
    | zero =>
      ext j hj
      simp [word64LE, hj, show j < 64 by omega]
    | succ i =>
      rw [List.getD_cons_succ, ← ih (by omega)]
      ext j hj
      have hpast : 8 ≤ 8 * (i + 1) + j := by omega
      have hin : 8 * (i + 1) + j < 64 := by omega
      have hsub : 8 * (i + 1) + j - 8 = 8 * i + j := by omega
      simp [word64LE, hpast.not_gt, hin, hsub, BitVec.getLsbD_of_ge b _ hpast,
        ← BitVec.getLsbD_eq_getElem]

/-- The two sides of the bijection in order `LE` (R121). -/
theorem word64LE_leBytes (v : BitVec 64) : word64LE (leBytes v) = v := by
  apply eq_of_extract_bytes
  intro i hi
  rw [extract_word64LE _ hi, List.getD_eq_getElem?_getD, getElem?_leBytes v hi, Option.getD_some]

theorem leBytes_word64LE {bs : List Byte} (h : bs.length = 8) : leBytes (word64LE bs) = bs := by
  apply List.ext_getElem (by rw [leBytes_length, h])
  intro i hi hi'
  simp [leBytes, extract_word64LE bs (h ▸ hi'), hi']

theorem word64_beBytes (v : BitVec 64) : word64 (beBytes v) .be = v := by
  rw [word64, beBytes_eq_reverse, List.reverse_reverse, word64LE_leBytes]

theorem beBytes_word64 {bs : List Byte} (h : bs.length = 8) : beBytes (word64 bs .be) = bs := by
  rw [word64, beBytes_eq_reverse, leBytes_word64LE (by simpa using h), List.reverse_reverse]

/-- A value assembled in order `LE` is the positional sum of the first eight bytes. -/
theorem word64LE_toNat (bs : List Byte) :
    (word64LE bs).toNat = ((List.range 8).map fun i => (bs.getD i 0x00).toNat * 256 ^ i).sum := by
  rw [toNat_eq_sum_bytes]
  refine congrArg List.sum (List.map_congr_left fun i hi => ?_)
  rw [extract_word64LE bs (List.mem_range.mp hi)]

/-- Eight terms summed from the last on. -/
theorem sum_range_eight_reflect (f : Nat → Nat) :
    ((List.range 8).map fun i => f (7 - i)).sum = ((List.range 8).map f).sum := by
  have hrev : (List.range 8).map (7 - ·) = (List.range 8).reverse := by decide
  calc ((List.range 8).map fun i => f (7 - i)).sum
    _ = (((List.range 8).map (7 - ·)).map f).sum := by rw [List.map_map]; rfl
    _ = ((List.range 8).map f).sum := by rw [hrev, List.map_reverse, List.sum_reverse]

/-- A value assembled in order `BE` is the sum with the weights reversed. -/
theorem word64_be_toNat {bs : List Byte} (h : bs.length = 8) :
    (word64 bs .be).toNat =
      ((List.range 8).map fun i => (bs.getD i 0x00).toNat * 256 ^ (7 - i)).sum := by
  rw [word64, word64LE_toNat, ← sum_range_eight_reflect]
  refine congrArg List.sum (List.map_congr_left fun i hi => ?_)
  have hi : i < 8 := List.mem_range.mp hi
  rw [List.getD_reverse _ (by omega), h, show 8 - 1 - (7 - i) = i by omega]

/-- In either order every value comes from exactly one sequence of eight bytes (R121). -/
theorem existsUnique_word64 (o : WordOrder) (v : BitVec 64) :
    ∃! bs : List Byte, bs.length = 8 ∧ word64 bs o = v := by
  cases o with
  | le =>
    refine ⟨leBytes v, ⟨leBytes_length v, word64LE_leBytes v⟩, ?_⟩
    rintro bs ⟨hlen, rfl⟩
    exact (leBytes_word64LE hlen).symm
  | be =>
    refine ⟨beBytes v, ⟨beBytes_length v, word64_beBytes v⟩, ?_⟩
    rintro bs ⟨hlen, rfl⟩
    exact (beBytes_word64 hlen).symm

/-- Settles O27, by the bytes of an assembled value. -/
theorem word64IsThePositionalSum : Obligations.Word64IsThePositionalSum :=
  ⟨rfl, fun bs hlen => ⟨word64LE_toNat bs, word64_be_toNat hlen⟩, existsUnique_word64⟩

/-- The extracted byte by its weight. -/
theorem beByte_toNat (v : BitVec 64) {i : Nat} (hi : i < 8) :
    (beByte v i).toNat = v.toNat / 2 ^ (8 * (7 - i)) % 256 := by
  rw [beByte, BitVec.extractLsb'_toNat, Nat.shiftRight_eq_div_pow,
    show 56 - 8 * i = 8 * (7 - i) by omega]

/-- Settles O28, by the bytes in reversed order. -/
theorem byteExtractorIsMostSignificantFirst : Obligations.ByteExtractorIsMostSignificantFirst :=
  fun v => ⟨fun _ hi => beByte_toNat v hi, beBytes_length v, fun _ hi => getElem?_beBytes v hi,
    word64_beBytes v⟩

/-! ## The characters of a value -/

/-- The character codes of the digits (R125); neither sum leaves the byte. -/
theorem hexdigit_toNat (d : BitVec 4) :
    (hexdigit d).toNat = if d.toNat ≤ 9 then 0x30 + d.toNat else 0x61 + (d.toNat - 10) := by
  have hd := d.isLt
  unfold hexdigit
  split_ifs with hle <;> bv_omega

/-- Character `k` of the digits of a byte sequence: a nibble of byte `k / 2`, the high one
where `k` is even. -/
theorem getElem?_flatMap_hexPair (bs : List Byte) (k : Nat) :
    (bs.flatMap hexPair)[k]? =
      bs[k / 2]?.map fun b => hexdigit (b.extractLsb' (4 - 4 * (k % 2)) 4) := by
  induction bs generalizing k with
  | nil => rfl
  | cons b bs ih =>
    match k with
    | 0 => rfl
    | 1 => rfl
    | k + 2 =>
      rw [show (k + 2) / 2 = k / 2 + 1 by omega, Nat.add_mod_right, List.getElem?_cons_succ, ← ih]
      rfl

/-- Nibble `k` of a value, from the most significant on, in its byte `k / 2`. -/
theorem extract_beByte (v : BitVec 64) {k : Nat} (hk : k < 16) :
    (beByte v (k / 2)).extractLsb' (4 - 4 * (k % 2)) 4 = v.extractLsb' (60 - 4 * k) 4 := by
  have hpos : 56 - 8 * (k / 2) + (4 - 4 * (k % 2)) = 60 - 4 * k := by omega
  ext j hj
  have hbyte : 4 - 4 * (k % 2) + j < 8 := by omega
  simp [beByte, hbyte, ← Nat.add_assoc, hpos]

/-- Digit `k` of the text, after the two characters of the prefix (R126). -/
theorem getElem?_textOf_digit (v : BitVec 64) {k : Nat} (hk : k < 16) :
    (textOf v)[2 + k]? = some (hexdigit (v.extractLsb' (60 - 4 * k) 4)) := by
  rw [textOf, Nat.add_comm, List.getElem?_cons_succ, List.getElem?_cons_succ,
    getElem?_flatMap_hexPair, getElem?_beBytes v (by omega), Option.map_some, extract_beByte v hk]

/-- Settles O31, by the nibble each digit stands for. -/
theorem textHasPrefixAndSixteenDigits : Obligations.TextHasPrefixAndSixteenDigits :=
  ⟨hexdigit_toNat, fun v => ⟨textOf_length v, rfl, rfl, fun _ hk => getElem?_textOf_digit v hk⟩⟩

/-! ## The commands `LDV` and `FMT` -/

variable {s : State}

/-- An input that is no cipher block takes the fault `BadBlockLength` (60_exceptions R173). -/
theorem loadValue_of_ne (o : WordOrder) (h : s.ilen.toNat ≠ 16) :
    loadValue o s = .next (faulted 0x03 s) := by
  rw [loadValue, if_neg h]
  rfl

/-- Byte `i` of a whole cipher block is byte `i` of the value loaded in order `LE`. -/
theorem readMem_ibuf_of_block (hinv : s.EngineInv) (hlen : s.ilen.toNat = 16) {i : Nat}
    (hi : i < 8) :
    readMem s.ibuf i =
      some ((word64 ((bytesOf s.ibuf).take 8) .le).extractLsb' (8 * i) 8) := by
  have hbytes : i < (bytesOf s.ibuf).length := by rw [(ibuf_eq hinv).2]; omega
  rw [readMem_ibuf hinv, word64, extract_word64LE _ hi, List.getD_eq_getElem?_getD,
    List.getElem?_take_of_lt hi, List.getElem?_eq_getElem hbytes, Option.getD_some]

/-- Settles O29, by the length of the block. -/
theorem ldvLoadsTheFirstEightBytes : Obligations.LdvLoadsTheFirstEightBytes := by
  refine ⟨rfl, fun s hinv hf => ?_⟩
  rw [exec_ldv hf]
  split_ifs with hlen
  · exact loadValue_of_ne _ hlen
  · have hblock : s.ilen.toNat = 16 := not_not.mp hlen
    rw [loadValue_of_inv hinv _ hblock]
    exact ⟨_, rfl, rfl, readMem_nil, fun _ hi => readMem_ibuf_of_block hinv hblock hi⟩

/-- `TEXT` after a format: the eighteen codes, and no value past them. -/
theorem readMem_memOf_textOf (v : BitVec 64) :
    (∀ i < 18, ∃ c, (textOf v)[i]? = some c ∧ readMem (memOf (textOf v)) i = some c) ∧
    ∀ a, 18 ≤ a → readMem (memOf (textOf v)) a = none := by
  simp only [readMem_memOf, and_self]
  constructor
  · intro i hi
    exact ⟨_, List.getElem?_eq_getElem (by rwa [textOf_length])⟩
  · intro a ha
    exact List.getElem?_eq_none (by rwa [textOf_length])

/-- With no value loaded `FMT` takes the fault `NotReady` (60_exceptions R174). -/
theorem exec_fmt_of_invalid (hf : s.fcode = 0) (hvv : s.vv = false) :
    exec .fmt s = .next (faulted 0x04 s) := by
  rw [exec_fmt hf, if_neg (by simp [hvv])]
  rfl

theorem exec_fmt_of_valid (hf : s.fcode = 0) (hvv : s.vv = true) :
    exec .fmt s = respond 0x00 (s.setText (textOf s.value)) := by
  rw [exec_fmt hf, if_pos hvv]

/-- Settles O33, by the validity of `VALUE`. -/
theorem fmtWritesTheTextOfTheValue : Obligations.FmtWritesTheTextOfTheValue := by
  refine ⟨rfl, fun s hf => ?_⟩
  split_ifs with hinvalid
  · exact exec_fmt_of_invalid hf hinvalid
  · rw [exec_fmt_of_valid hf (eq_true_of_ne_false hinvalid)]
    exact ⟨_, rfl, rfl, readMem_memOf_textOf s.value⟩

end Sys2Proof.Machine

/-! The read-out commands (spec/43_readout.md R140 to R145): the words that are these
commands, the two checks before an indexed read, and the byte each command answers. -/

namespace Sys2Proof

/-- A row with an operand decodes its `OP` followed by any byte to its command with that
operand (30_encoding R74). -/
theorem decode_append_of_row {op : Byte} {cmd : Byte → Instr}
    (hrow : ⟨op ++ (0x00 : Byte), 0xFF00, cmd⟩ ∈ opcodeMap) (arg : Byte) :
    decode (op ++ arg) = .ok (cmd arg) := by
  have h := decode_of_row (op ++ arg) _ hrow (Laws.RowMatch.high_byte op arg)
  rwa [argField_append] at h

theorem decode_rdo_word (i : Byte) : decode (0x0800 ||| i.setWidth 16) = .ok (.rdo i) :=
  decode_append_of_row (op := 0x08) (cmd := .rdo) (by simp [opcodeMap]) i

theorem decode_rdv_word (i : Byte) : decode (0x0900 ||| i.setWidth 16) = .ok (.rdv i) :=
  decode_append_of_row (op := 0x09) (cmd := .rdv) (by simp [opcodeMap]) i

theorem decode_rdt_word (i : Byte) : decode (0x0A00 ||| i.setWidth 16) = .ok (.rdt i) :=
  decode_append_of_row (op := 0x0A) (cmd := .rdt) (by simp [opcodeMap]) i

end Sys2Proof

namespace Sys2Proof.Machine

open Sys2Proof.Claims

variable {s : State}

/-! ## The flags and the `STATUS` byte -/

theorem ov_eq_decide (s : State) : s.ov = decide (s.olen.toNat ≠ 0) := by
  simp [State.ov, ← BitVec.toNat_inj, bne, beq_eq_decide]

theorem o32_eq_decide (s : State) : s.o32 = decide (s.olen.toNat = 32) := by
  simp [State.o32, ← BitVec.toNat_inj, beq_eq_decide]

theorem iovf_eq_decide (s : State) : s.iovf = decide (s.ilen.toNat = 33) := by
  simp [State.iovf, ← BitVec.toNat_inj, beq_eq_decide]

theorem getLsbD_bitIf (c : Bool) (b : Byte) (j : Nat) :
    (bitIf c b).getLsbD j = (c && b.getLsbD j) := by
  cases c <;> simp [bitIf]

/-- A valid output of 32 bytes is a valid output (10_state R32). -/
theorem ov_of_o32 (h : s.o32 = true) : s.ov = true := by
  have h32 : s.olen.toNat = 32 := by simpa [o32_eq_decide] using h
  simp [ov_eq_decide, h32]

/-- The `STATUS` byte (10_state R32), bit by bit: bit `j` is the `j`-th of the five flags. -/
theorem getLsbD_statusByte (s : State) (j : Nat) :
    (statusByte s).getLsbD j = [s.ov, s.o32, s.vv, s.tv, s.iovf].getD j false := by
  simp only [statusByte, BitVec.getLsbD_or, getLsbD_bitIf]
  match j with
  | 0 | 1 | 2 | 3 | 4 => simp
  | j + 5 =>
    have hzero : ∀ b : Byte, b.toNat < 2 ^ 5 → b.getLsbD (j + 5) = false := fun b hb =>
      Nat.testBit_lt_two_pow (hb.trans_le (Nat.pow_le_pow_right (by decide) (by omega)))
    simp [hzero]

/-! ## The two checks before an indexed read -/

section ReadOut
variable {valid : Bool} {bound : Nat} {i : Byte} {get : State → Except Fault Byte}

/-- With nothing valid to read the fault is `NotReady`, whatever the index
(60_exceptions R174, R178). -/
theorem readOut_of_invalid (h : valid = false) :
    readOut valid bound i get s = .next (faulted 0x04 s) := by
  rw [readOut, if_neg (by simp [h])]
  rfl

/-- An index at or past the bound takes the fault `IndexRange` (60_exceptions R175). -/
theorem readOut_of_ge (h : valid = true) (hi : bound ≤ i.toNat) :
    readOut valid bound i get s = .next (faulted 0x05 s) := by
  rw [readOut, if_pos h, if_neg hi.not_gt]
  rfl

/-- After both checks the byte that was read is the response, and nothing is written. -/
theorem readOut_of_ok {b : Byte} (h : valid = true) (hi : i.toNat < bound)
    (hb : get s = .ok b) : readOut valid bound i get s = .next (answered b s) := by
  rw [readOut, if_pos h, if_pos hi, hb]
  rfl

end ReadOut

/-! ## The bytes that are read -/

/-- Under the invariant `OBUF` is defined below `OLEN`, and there `RDO` can read it. -/
theorem readCell_obuf (h : s.EngineInv) {j : Nat} (hj : j < s.olen.toNat) :
    ∃ b, readMem s.obuf j = some b ∧ readCell .obuf j s = .ok b := by
  have ⟨_, holen, _⟩ := h
  obtain ⟨hmem, hlen⟩ := obuf_eq h
  have hcell : readMem s.obuf j = some ((bytesOf s.obuf)[j]'(hlen ▸ hj)) := by
    rw [congrArg (readMem · j) hmem, readMem_memOf, List.getElem?_eq_getElem]
  exact ⟨_, hcell, (readCell_ok_iff .obuf j s _).mpr ⟨by simp [cellCount]; omega, hcell⟩⟩

/-- Under the invariant the cells of a valid `TEXT` are the characters of `VALUE`. -/
theorem readMem_text (h : s.EngineInv) (htv : s.tv = true) (j : Nat) :
    readMem s.text j = (textOf s.value)[j]? := by
  rw [text_eq h htv, readMem_memOf]

theorem readCell_text {j : Nat} {c : Byte} (hj : j < 18) (hc : readMem s.text j = some c) :
    readCell .text j s = .ok c :=
  (readCell_ok_iff .text j s c).mpr ⟨hj, hc⟩

/-- Byte `i` of a value, most significant first, is the low byte of a quotient. -/
theorem beByte_eq_ofNat (v : BitVec 64) {i : Nat} (hi : i < 8) :
    beByte v i = BitVec.ofNat 8 (v.toNat / 256 ^ (7 - i)) := by
  apply BitVec.eq_of_toNat_eq
  rw [beByte_toNat v hi, Nat.pow_mul]
  rfl

/-! ## The read-out commands -/

/-- Settles O34, by the two checks of `RDO` and the defined cells of `OBUF`. -/
theorem rdoReturnsAByteOfTheOutput : Obligations.RdoReturnsAByteOfTheOutput := by
  intro i s hinv hf
  refine ⟨decode_rdo_word i, ?_⟩
  rw [exec_rdo hf]
  split_ifs with hempty hpast
  · exact readOut_of_invalid (by simp [ov_eq_decide, hempty])
  · exact readOut_of_ge (by simp [ov_eq_decide, hempty]) hpast
  · have hi : i.toNat < s.olen.toNat := not_le.mp hpast
    obtain ⟨b, hcell, hread⟩ := readCell_obuf hinv hi
    exact ⟨b, hcell, readOut_of_ok (by simp [ov_eq_decide, hempty]) hi hread⟩

/-- Settles O35, by the two checks of `RDV` and the byte extractor. -/
theorem rdvReturnsAByteOfTheValue : Obligations.RdvReturnsAByteOfTheValue := by
  intro i s hf
  refine ⟨decode_rdv_word i, ?_⟩
  rw [exec_rdv hf]
  split_ifs with hinvalid hpast
  · exact readOut_of_invalid hinvalid
  · exact readOut_of_ge (eq_true_of_ne_false hinvalid) hpast
  · have hi : i.toNat < 8 := not_le.mp hpast
    rw [← beByte_eq_ofNat s.value hi]
    exact readOut_of_ok (eq_true_of_ne_false hinvalid) hi rfl

/-- Settles O36, by the two checks of `RDT` and the characters of a valid `TEXT`. -/
theorem rdtReturnsACharacterOfTheText : Obligations.RdtReturnsACharacterOfTheText := by
  intro i s hinv hf
  refine ⟨decode_rdt_word i, ?_⟩
  rw [exec_rdt hf]
  split_ifs with hinvalid hpast
  · exact readOut_of_invalid hinvalid
  · exact readOut_of_ge (eq_true_of_ne_false hinvalid) hpast
  · have htv : s.tv = true := eq_true_of_ne_false hinvalid
    have hi : i.toNat < 18 := not_le.mp hpast
    obtain ⟨c, hc⟩ : ∃ c, (textOf s.value)[i.toNat]? = some c :=
      ⟨_, List.getElem?_eq_getElem (by rwa [textOf_length])⟩
    have hcell : readMem s.text i.toNat = some c := (readMem_text hinv htv _).trans hc
    refine ⟨c, hcell, readOut_of_ok htv hi (readCell_text hi hcell), ?_, ?_⟩
    · rintro rfl
      exact (Option.some.inj hc).symm
    · rintro rfl
      exact (Option.some.inj hc).symm

/-- Settles O37, by the bits of the `STATUS` byte; `O32` comes only with `OV` since 32 is not
0, and `TV` only with `VV` by the invariant. -/
theorem rdsReturnsTheStatusByte : Obligations.RdsReturnsTheStatusByte := by
  refine ⟨rfl, fun s hf => ⟨statusByte s, exec_rds hf, ?_⟩⟩
  simp only [getLsbD_statusByte, ← ov_eq_decide, ← o32_eq_decide, ← iovf_eq_decide]
  refine ⟨rfl, rfl, rfl, rfl, rfl, rfl, rfl, rfl, ov_of_o32, fun hinv => ?_⟩
  obtain ⟨-, -, hvv, -⟩ := hinv
  exact hvv

/-- Settles O38, by the bytes of the two length registers. -/
theorem rdilAndRdolReturnTheLengths : Obligations.RdilAndRdolReturnTheLengths := by
  refine ⟨rfl, rfl, fun s hf => ?_⟩
  rw [exec_rdil hf, exec_rdol hf, BitVec.ofNat_toNat, BitVec.ofNat_toNat]
  exact ⟨rfl, rfl⟩

end Sys2Proof.Machine

/-! The five faults and the freeze (spec/60_exceptions.md R170 to R178): a frozen engine refuses
every word, a fault writes `FCODE` alone, and the code is the one that the word and the state
determine. -/

namespace Sys2Proof

theorem ite_some_eq_none_iff {α : Type} {c : Prop} [Decidable c] {a : α} {x : Option α} :
    (if c then some a else x) = none ↔ ¬ c ∧ x = none := by
  by_cases h : c <;> simp [h]

theorem exists_ite_ok_iff {ε α : Type} {c : Prop} [Decidable c] {a : α} {x : Except ε α} :
    (∃ i, (if c then .ok a else x) = .ok i) ↔ c ∨ ∃ i, x = .ok i := by
  by_cases h : c <;> simp [h]

/-- A word stands in no row of R76's table exactly when it is a command's (30_encoding R76,
R78): the ranges of the one table are the complement of the numbers of the other. -/
theorem illegalRow_eq_none_iff (w : Word) : illegalRow w = none ↔ ∃ i, decode w = .ok i := by
  have hw := w.isLt
  simp only [illegalRow, ite_some_eq_none_iff, wordIn, decode_eq, exists_ite_ok_iff,
    Bool.or_eq_true, Bool.and_eq_true, decide_eq_true_eq, reduceCtorEq, exists_false,
    and_true, or_false]
  omega

end Sys2Proof

namespace Sys2Proof.Machine

open Sys2Proof.Claims

variable {s t : State} {w : Word} {i : Instr}

/-- Settles O16, by the freeze check that comes before a command and before the decoder. -/
theorem frozenEngineRefusesEveryCommand : Obligations.FrozenEngineRefusesEveryCommand :=
  fun s hf => ⟨fun i => exec_frozen i s hf, fun w => transact_frozen w hf⟩

/-- A command that completes does not touch `FCODE`. -/
theorem effect_fcode {d : Byte} {u : State} (h : Effect i s d u) : u.fcode = s.fcode := by
  obtain ⟨hfcode, -⟩ := effect_keeps h
  exact hfcode

/-- A command that leaves a running engine frozen raised a fault, and did nothing else. -/
theorem exec_faulted (hf : s.fcode = 0) (h : exec i s = .next t) (ht : t.fcode ≠ 0) :
    t = faulted t.fcode s := by
  rcases exec_cases i s t h with ⟨hfrozen, -⟩ | ⟨-, c, -, rfl⟩ | ⟨-, d, u, he, rfl⟩
  · exact absurd hf hfrozen
  · rfl
  · exact absurd ((effect_fcode he).trans hf) ht

/-- Settles O17, by the ways a transaction can end: only a raised fault sets `FCODE`. -/
theorem faultWritesOnlyTheFaultCode : Obligations.FaultWritesOnlyTheFaultCode := by
  intro w s t hf h ht
  rcases transact_cases w s t h with ⟨i, -, he⟩ | ⟨-, -, -, rfl⟩ | ⟨-, -, hfrozen, -⟩
  · exact exec_faulted hf he ht
  · rfl
  · exact absurd hf hfrozen

/-! ## The listed conditions are those of the commands -/

/-- A word of R76's table raises `IllegalCommand` (60_exceptions R172). -/
theorem faultOf_of_decode_error {e : IllegalWord} (hd : decode w = .error e) :
    faultOf w s = 0x02 := by
  have hillegal : illegalRow w ≠ none := by simp [illegalRow_eq_none_iff, hd]
  exact if_pos hillegal

/-- The listed fault of a command word whose command raises one. -/
theorem faultOf_of_raises {c : Cause} (hd : decode w = .ok i) (h : Raises i s c) :
    faultOf w s = codeOf c := by
  have hlegal : illegalRow w = none := (illegalRow_eq_none_iff w).mpr ⟨i, hd⟩
  cases i with
  | nop | clr | push | rds | rdil | rdol => exact h.elim
  | pad16 | pad32 | ldv | fmt =>
    obtain ⟨hcond, rfl⟩ := h
    simp [faultOf, hlegal, hd, hcond, codeOf]
  | rdo k =>
    rw [Raises, ov_eq_decide, decide_eq_false_iff_not, decide_eq_true_iff] at h
    obtain ⟨hinvalid, rfl⟩ | ⟨hvalid, hpast, rfl⟩ := h
    · simp [faultOf, hlegal, hd, not_not.mp hinvalid, codeOf]
    · simp [faultOf, hlegal, hd, hvalid, hpast, codeOf]
  | rdv k | rdt k =>
    obtain ⟨hinvalid, rfl⟩ | ⟨hvalid, hpast, rfl⟩ := h
    · simp [faultOf, hlegal, hd, hinvalid, codeOf]
    · simp [faultOf, hlegal, hd, hvalid, hpast, codeOf]

/-- No fault is listed for a command word whose command completes. -/
theorem faultOf_of_effect {d : Byte} {u : State} (hd : decode w = .ok i) (h : Effect i s d u) :
    faultOf w s = 0x00 := by
  have hlegal : illegalRow w = none := (illegalRow_eq_none_iff w).mpr ⟨i, hd⟩
  cases i with
  | nop | clr | push | rds | rdil | rdol => simp [faultOf, hlegal, hd]
  | pad16 | pad32 | ldv | fmt =>
    obtain ⟨-, hcond, -⟩ := h
    simp [faultOf, hlegal, hd, hcond]
  | rdo k =>
    rw [Effect, ov_eq_decide, decide_eq_true_iff] at h
    obtain ⟨hvalid, hbound, -⟩ := h
    simp [faultOf, hlegal, hd, hvalid, hbound]
  | rdv k | rdt k =>
    obtain ⟨hvalid, hbound, -⟩ := h
    simp [faultOf, hlegal, hd, hvalid, hbound]

/-- A running engine's `FCODE` after a command is the listed fault of the command's word. -/
theorem exec_fcode (hd : decode w = .ok i) (hf : s.fcode = 0) (h : exec i s = .next t) :
    t.fcode = faultOf w s := by
  rcases exec_cases i s t h with ⟨hfrozen, -⟩ | ⟨-, c, hc, rfl⟩ | ⟨-, d, u, he, rfl⟩
  · exact absurd hf hfrozen
  · exact (faultOf_of_raises hd hc).symm
  · exact ((effect_fcode he).trans hf).trans (faultOf_of_effect hd he).symm

/-! ## Under the invariant every command answers -/

/-- A read-out whose byte is defined wherever both checks pass answers a next state. -/
theorem readOut_next {valid : Bool} {bound : Nat} {k : Byte} {get : State → Except Fault Byte}
    (hget : valid = true → k.toNat < bound → ∃ b, get s = .ok b) :
    ∃ t, readOut valid bound k get s = .next t := by
  rcases readOut_cases valid bound k get s with ⟨-, e⟩ | ⟨-, -, e⟩ | ⟨-, -, b, -, e⟩ |
    ⟨hv, hk, f, herr, -⟩
  · exact ⟨_, e⟩
  · exact ⟨_, e⟩
  · exact ⟨_, e⟩
  · obtain ⟨b, hok⟩ := hget hv hk
    cases hok.symm.trans herr

theorem padTo_next (hinv : s.EngineInv) {n : Nat} (hn : n ≤ 32) : ∃ t, padTo n s = .next t := by
  by_cases hlong : n < s.ilen.toNat
  · exact ⟨_, padTo_of_gt hlong⟩
  · exact ⟨_, padTo_of_inv hinv (not_lt.mp hlong) (by omega)⟩

theorem loadValue_next (hinv : s.EngineInv) (o : WordOrder) : ∃ t, loadValue o s = .next t := by
  by_cases hlen : s.ilen.toNat = 16
  · exact ⟨_, loadValue_of_inv hinv o hlen⟩
  · exact ⟨_, loadValue_of_ne o hlen⟩

/-- Under the invariant every command in a running engine answers a next state (70_reset
R202): the cells it reads are defined. -/
theorem exec_next (hinv : s.EngineInv) (hf : s.fcode = 0) (i : Instr) :
    ∃ t, exec i s = .next t := by
  cases i with
  | nop => exact ⟨_, exec_nop hf⟩
  | clr => exact ⟨_, exec_clr hf⟩
  | push b => exact ⟨_, exec_push hf b⟩
  | pad16 => exact exec_pad16 hf ▸ padTo_next hinv (by decide)
  | pad32 => exact exec_pad32 hf ▸ padTo_next hinv (by decide)
  | ldv => exact exec_ldv hf ▸ loadValue_next hinv _
  | fmt =>
    cases hvv : s.vv with
    | false => exact ⟨_, exec_fmt_of_invalid hf hvv⟩
    | true => exact ⟨_, exec_fmt_of_valid hf hvv⟩
  | rdo k =>
    rw [exec_rdo hf]
    refine readOut_next fun _ hk => ?_
    obtain ⟨b, -, hread⟩ := readCell_obuf hinv hk
    exact ⟨b, hread⟩
  | rdv k =>
    rw [exec_rdv hf]
    exact readOut_next fun _ _ => ⟨_, rfl⟩
  | rdt k =>
    rw [exec_rdt hf]
    refine readOut_next fun htv hk => ?_
    have hlen : k.toNat < (textOf s.value).length := by rwa [textOf_length]
    have hcell := (readMem_text hinv htv k.toNat).trans (List.getElem?_eq_getElem hlen)
    exact ⟨_, readCell_text hk hcell⟩
  | rds => exact ⟨_, exec_rds hf⟩
  | rdil => exact ⟨_, exec_rdil hf⟩
  | rdol => exact ⟨_, exec_rdol hf⟩

/-- Settles O18: an illegal word raises its own fault; a command answers a next state, and that
state's `FCODE` is the listed one. -/
theorem faultsAreRaisedExactlyAsListed : Obligations.FaultsAreRaisedExactlyAsListed := by
  intro w s hinv hf
  cases hd : decode w with
  | error e => exact ⟨_, transact_illegal hf hd, (faultOf_of_decode_error hd).symm⟩
  | ok i =>
    obtain ⟨t, ht⟩ := exec_next (s := s.accept) hinv hf i
    exact ⟨t, (transact_of_decode_ok hd).trans ht, exec_fcode (s := s.accept) hd hf ht⟩

end Sys2Proof.Machine

/-! The reset state (spec/70_reset_and_hazards.md R190) and what the first commands after it
answer: the registers that are read back are 0, and every command that needs something valid
finds nothing. -/

namespace Sys2Proof.Machine

open Sys2Proof.Claims

variable {s : State}

/-- The reset state is R190's, whatever `VALUE` holds. -/
theorem isResetState_resetAt (n : Nat) : isResetState (State.resetAt n) :=
  ⟨rfl, rfl, rfl, rfl, rfl, fun _ => ⟨rfl, rfl, rfl⟩⟩

theorem ov_eq_false (h : s.olen = 0) : s.ov = false := by
  simp [State.ov, h]

/-- The three control registers all read 0x00 after a reset (10_state R32). -/
theorem controlRegisters_of_isResetState (h : isResetState s) :
    statusByte s = 0x00 ∧ ilenByte s = 0x00 ∧ olenByte s = 0x00 := by
  obtain ⟨hilen, holen, hvv, htv, -⟩ := h
  refine ⟨?_, ?_, ?_⟩
  · simp [statusByte, bitIf, State.ov, State.o32, State.iovf, hilen, holen, hvv, htv]
  · simp [ilenByte, hilen]
  · simp [olenByte, holen]

/-- After a reset the engine runs, and reading the control registers answers 0x0000. -/
theorem exec_readRegisters_of_isResetState (h : isResetState s) :
    exec .rds s = .next (answered 0x00 s) ∧ exec .rdil s = .next (answered 0x00 s) ∧
      exec .rdol s = .next (answered 0x00 s) := by
  obtain ⟨hstatus, hilen, holen⟩ := controlRegisters_of_isResetState h
  obtain ⟨-, -, -, -, hf, -⟩ := h
  rw [exec_rds hf, exec_rdil hf, exec_rdol hf, hstatus, hilen, holen]
  exact ⟨rfl, rfl, rfl⟩

/-- After a reset no index is read, in range or not: `NotReady` comes before `IndexRange`
(60_exceptions R174, R178). -/
theorem exec_indexedRead_of_isResetState (h : isResetState s) (i : Byte) :
    exec (.rdo i) s = .next (faulted 0x04 s) ∧ exec (.rdv i) s = .next (faulted 0x04 s) ∧
      exec (.rdt i) s = .next (faulted 0x04 s) := by
  obtain ⟨-, holen, hvv, htv, hf, -⟩ := h
  rw [exec_rdo hf, exec_rdv hf, exec_rdt hf]
  exact ⟨readOut_of_invalid (ov_eq_false holen), readOut_of_invalid hvv, readOut_of_invalid htv⟩

/-- Settles O9, from the five registers that are 0 in a reset state. -/
theorem resetStateIsTheSpecifiedOne : Obligations.ResetStateIsTheSpecifiedOne := by
  refine ⟨rfl, fun n => ?_⟩
  have hreset := isResetState_resetAt n
  obtain ⟨hrds, hrdil, hrdol⟩ := exec_readRegisters_of_isResetState hreset
  have hfmt : exec .fmt (State.resetAt n) = .next (faulted 0x04 (State.resetAt n)) :=
    exec_fmt_of_invalid rfl rfl
  exact ⟨hreset, hrds, hrdil, hrdol, hfmt, exec_indexedRead_of_isResetState hreset⟩

end Sys2Proof.Machine

/-! The decoder and the encoder are inverse to each other (spec/30_encoding.md R70, R74), and
the decoder rejects the words of R76's table under the names of their rows. -/

namespace Sys2Proof

variable {w : Word}

/-! ## The round trip -/

/-- The word of a command selects that command's row, and its `ARG` is the operand. -/
theorem decode_encode (i : Instr) : decode (encode i) = .ok i := by
  cases i with
  | push b => exact decode_encode_push b
  | rdo k => exact decode_rdo_word k
  | rdv k => exact decode_rdv_word k
  | rdt k => exact decode_rdt_word k
  | nop | clr | pad16 | pad32 | ldv | fmt | rds | rdil | rdol => rfl

/-- Settles O1, by the row each command's word selects. -/
theorem everyCommandDecodesFromItsWord : Obligations.EveryCommandDecodesFromItsWord :=
  decode_encode

/-- A word of a row with an operand is the row's `OP` followed by the word's own `ARG`. -/
theorem append_argField_of_and {op : Byte} (h : w &&& 0xFF00 = op ++ (0x00 : Byte)) :
    op ++ argField w = w := by
  have hfields := fields_append w
  have hop : opField w ++ (0x00 : Byte) = (op ++ (0x00 : Byte) : Word) := by
    rw [← h, ← Laws.RowMatch.high_byte (opField w) (argField w), hfields]
  have hnum := congrArg BitVec.toNat hop
  simp only [append_toNat] at hnum
  have heq : opField w = op := BitVec.eq_of_toNat_eq (by omega)
  rw [← heq, hfields]

/-- Whatever row of the opcode map a word selects, it is the encoding of that row's command. -/
theorem encode_of_row :
    ∀ r ∈ opcodeMap, w &&& r.mask = r.pattern → encode (r.build (argField w)) = w := by
  simp only [opcodeMap, List.cons_append, List.nil_append, List.forall_mem_cons, and_allOnes16]
  have word {i : Instr} {p : Word} (hp : encode i = p) : w = p → encode i = w :=
    fun hw => hp.trans hw.symm
  have op (op : Byte) : w &&& 0xFF00 = op ++ (0x00 : Byte) → op ++ argField w = w :=
    append_argField_of_and
  exact ⟨word rfl, word rfl, op 0x02, word rfl, word rfl, word rfl, word rfl, op 0x08, op 0x09,
    op 0x0A, word rfl, word rfl, word rfl, by simp⟩

/-- Settles O2, by the row a decoded word selects. -/
theorem decodedWordIsItsCommandsEncoding : Obligations.DecodedWordIsItsCommandsEncoding := by
  intro w i hd
  rcases decodeFrom_cases opcodeMap w with ⟨r, hr, hs, hok⟩ | ⟨-, herr⟩
  · obtain rfl : r.build (argField w) = i := Except.ok.inj (hok.symm.trans hd)
    exact encode_of_row r hr ((selects_iff r w).mp hs)
  · cases herr.symm.trans hd

/-- Settles O5, by the words of the thirteen commands. -/
theorem listedWordsDecodeAsTheTableSays : Obligations.ListedWordsDecodeAsTheTableSays :=
  ⟨decode_encode .nop, decode_encode .clr, decode_encode (.push 0x4D), decode_encode .pad16,
    decode_encode .pad32, decode_encode .ldv, decode_encode .fmt, decode_encode (.rdo 15),
    decode_encode (.rdv 7), decode_encode (.rdt 17), decode_encode .rds, decode_encode .rdil,
    decode_encode .rdol, rfl⟩

/-! ## The names of the illegal words -/

/-- The name of a rejection by the word's number. -/
theorem rejectName_eq (w : Word) :
    rejectName w =
      if w.toNat / 256 = 0x00 then .nopArg
      else if w.toNat / 256 = 0x01 then .clrArg
      else if w.toNat / 256 = 0x03 then .padLength
      else if w.toNat / 256 = 0x04 then .ldvArg
      else if w.toNat / 256 = 0x05 then .fmtArg
      else if w.toNat / 256 = 0x0B then .ctrlReg
      else .opUnassigned := by
  rw [rejectName, opField_toNat]
  split <;> simp_all

/-- The decoder gives no other name to a rejection. -/
theorem rejectName_of_decode_error {e : IllegalWord} (h : decode w = .error e) :
    rejectName w = e := by
  rcases decodeFrom_cases opcodeMap w with ⟨r, -, -, hok⟩ | ⟨-, herr⟩
  · cases hok.symm.trans h
  · exact Except.error.inj (herr.symm.trans h)

/-- The ranges of each row of R76's table stand under one `OP`, which names the row. -/
theorem rejectName_of_illegalRow {e : IllegalWord} (h : illegalRow w = some e) :
    rejectName w = e := by
  simp only [illegalRow, wordIn, Bool.or_eq_true, Bool.and_eq_true, decide_eq_true_eq] at h
  rw [rejectName_eq]
  split_ifs at h <;> cases h <;> simp (disch := omega) only [if_pos, if_neg]

/-- Settles O4: both tables reject the same words, and both names are that of the `OP`. -/
theorem decoderRejectsExactlyTheListedWords :
    Obligations.DecoderRejectsExactlyTheListedWords := by
  intro w e
  constructor
  · intro h
    cases hrow : illegalRow w with
    | none =>
      obtain ⟨i, hi⟩ := (illegalRow_eq_none_iff w).mp hrow
      cases hi.symm.trans h
    | some e' => rw [← rejectName_of_illegalRow hrow, rejectName_of_decode_error h]
  · intro h
    cases hd : decode w with
    | ok i => cases ((illegalRow_eq_none_iff w).mpr ⟨i, hd⟩).symm.trans h
    | error e' => rw [← rejectName_of_decode_error hd, rejectName_of_illegalRow h]

end Sys2Proof

/-! One step of the transaction machine (spec/10_state.md R29, R37): a command word, a
command's own word presented next, and a reset event. -/

namespace Sys2Proof.Machine

variable {s : State}

/-- Settles O6, by the step on a command word and the decoded command. -/
theorem stepRunsTheDecodedCommand : Obligations.StepRunsTheDecodedCommand := by
  intro s w rest i hp hd
  rw [step_command hp, transact_of_decode_ok hd]
  rfl

/-- A command word presented in front of everything pending is the one the step transacts. -/
theorem step_withFetchWord (w : Word) : step (s.withFetchWord 16 w.toNat) = transact w s := by
  have hw : BitVec.ofNat 16 (w.toNat % 2 ^ 16) = w := by
    rw [Nat.mod_eq_of_lt w.isLt, BitVec.ofNat_toNat, BitVec.setWidth_eq]
  have hp : (s.withFetchWord 16 w.toNat).pending = .command w :: s.pending := by
    rw [State.withFetchWord, hw]
    rfl
  rw [step_command hp]
  rfl

/-- Settles O7, by the round trip of the command's word. -/
theorem presentedWordRunsNext : Obligations.PresentedWordRunsNext := by
  intro s i
  rw [step_withFetchWord, transact_of_decode_ok (decode_encode i)]
  rfl

/-- A step on a reset event. -/
theorem step_reset {rest : List HostEvent} (h : s.pending = .reset :: rest) :
    step s = .next (resetEvent (s.withPending rest)) := by
  simp [step, h]

/-- Settles O10, by the step on a reset event. -/
theorem resetEventRestoresTheResetState : Obligations.ResetEventRestoresTheResetState :=
  fun _ _ h => step_reset h

end Sys2Proof.Machine

/-! The invariant (spec/10_state.md R38): the reset state meets it, every write of a command
and every step keeps it, where it holds no step stops, and it says which cells are defined. -/

namespace Sys2Proof.Machine

variable {s t u : State} {i : Instr}

/-! ## The invariant is kept -/

theorem resetAt_engineInv (n : Nat) : (State.resetAt n).EngineInv :=
  ⟨by simp, .inl rfl, by simp, by simp, by simp, by simp, rfl, rfl⟩

/-- Settles O11, by the empty buffers of the reset state. -/
theorem resetStateMeetsTheInvariant : Obligations.ResetStateMeetsTheInvariant :=
  fun n => ⟨resetAt_engineInv n, rfl⟩

/-- `CLR` (40_input_stream R91). -/
theorem clearInput_engineInv (h : s.EngineInv) : s.clearInput.EngineInv := by
  obtain ⟨-, holen, hvv, htext, hnotext, hfcode, -, hobuf⟩ := h
  exact ⟨by simp, holen, hvv, htext, hnotext, hfcode, rfl, hobuf⟩

/-- A byte stored at `ILEN` is the one after the defined cells (R92). -/
theorem storeInput_addrs (h : s.EngineInv) (hlen : s.ilen.toNat < 32) (b : Byte) :
    definedCells (s.storeInput b).ibuf = List.range (s.ilen.toNat + 1) := by
  obtain ⟨hmem, hbytes⟩ := ibuf_eq h
  have hend : s.ilen.toNat = (bytesOf s.ibuf).length := by omega
  have hwrite : (s.storeInput b).ibuf = memOf (bytesOf s.ibuf ++ [b]) :=
    calc writeMem s.ibuf s.ilen.toNat b
      _ = writeMem (memOf (bytesOf s.ibuf)) (bytesOf s.ibuf).length b := by rw [← hmem, ← hend]
      _ = memOf (bytesOf s.ibuf ++ [b]) := writeMem_memOf_end _ b
  rw [definedCells, hwrite, memOf_addrs, List.length_append, ← hend, List.length_singleton]

/-- `PUSH` in each of its three cases (R92). -/
theorem pushInput_engineInv (h : s.EngineInv) (b : Byte) : (pushInput b s).EngineInv := by
  have ⟨_, holen, hvv, htext, hnotext, hfcode, hibuf, hobuf⟩ := h
  rcases lt_trichotomy s.ilen.toNat 32 with hlt | heq | hgt
  · have hlen := storeInput_ilen_toNat b hlt
    rw [pushInput_of_lt b hlt]
    refine ⟨by omega, holen, hvv, htext, hnotext, hfcode, ?_, hobuf⟩
    rw [storeInput_addrs h hlt, hlen, min_eq_left (by omega)]
  · rw [pushInput_of_eq b heq]
    exact ⟨by simp, holen, hvv, htext, hnotext, hfcode, by simpa [heq] using hibuf, hobuf⟩
  · rwa [pushInput_of_gt b hgt]

/-- `PAD16` and `PAD32` write `OLEN` cells of `OBUF` (41_padder R107, R108). -/
theorem setOutput_engineInv (h : s.EngineInv) {out : List Byte} {n : Nat}
    (hout : out.length = n) (hn : n = 16 ∨ n = 32) : (s.setOutput out n).EngineInv := by
  obtain ⟨hilen, -, hvv, htext, hnotext, hfcode, hibuf, -⟩ := h
  have holen : (s.setOutput out n).olen.toNat = n := by
    rw [State.setOutput_olen, BitVec.toNat_ofNat, Nat.mod_eq_of_lt (by omega)]
  refine ⟨hilen, by omega, hvv, htext, hnotext, hfcode, hibuf, ?_⟩
  rw [definedCells, State.setOutput_obuf, memOf_addrs, hout, holen]

/-- `LDV` makes `TEXT` invalid and undefined (42_formatter R122). -/
theorem setValue_engineInv (h : s.EngineInv) (v : BitVec 64) : (s.setValue v).EngineInv := by
  obtain ⟨hilen, holen, -, -, -, hfcode, hibuf, hobuf⟩ := h
  exact ⟨hilen, holen, by simp, by simp, by simp, hfcode, hibuf, hobuf⟩

/-- `FMT` writes the text of a valid `VALUE` (R127). -/
theorem setText_engineInv (h : s.EngineInv) (hvv : s.vv = true) :
    (s.setText (textOf s.value)).EngineInv := by
  obtain ⟨hilen, holen, -, -, -, hfcode, hibuf, hobuf⟩ := h
  exact ⟨hilen, holen, fun _ => hvv, fun _ => rfl, by simp, hfcode, hibuf, hobuf⟩

/-- Taking a fault writes one of the five codes (60_exceptions R176). -/
theorem setFcode_engineInv (h : s.EngineInv) {c : Byte} (hc : c.toNat ≤ 5) :
    (s.setFcode c).EngineInv := by
  obtain ⟨hilen, holen, hvv, htext, hnotext, -, hibuf, hobuf⟩ := h
  exact ⟨hilen, holen, hvv, htext, hnotext, hc, hibuf, hobuf⟩

theorem codeOf_le_five (c : Cause) : (codeOf c).toNat ≤ 5 := by
  cases c <;> decide

/-- Every command that completes keeps the invariant. -/
theorem effect_engineInv {d : Byte} (hinv : s.EngineInv) (h : Effect i s d u) :
    u.EngineInv := by
  cases i with
  | clr => exact h.2 ▸ clearInput_engineInv hinv
  | push b => exact h.2 ▸ pushInput_engineInv hinv b
  | pad16 =>
    obtain ⟨-, hlen, input, hread, rfl⟩ := h
    rw [← readCells_length _ _ _ _ _ hread] at hlen
    exact setOutput_engineInv hinv (padBytes_length input 16 hlen) (.inl rfl)
  | pad32 =>
    obtain ⟨-, hlen, input, hread, rfl⟩ := h
    rw [← readCells_length _ _ _ _ _ hread] at hlen
    exact setOutput_engineInv hinv (padBytes_length input 32 hlen) (.inr rfl)
  | ldv =>
    obtain ⟨-, -, bs, -, rfl⟩ := h
    exact setValue_engineInv hinv _
  | fmt =>
    obtain ⟨-, hvv, rfl⟩ := h
    exact setText_engineInv hinv hvv
  | nop | rds | rdil | rdol => exact h.2 ▸ hinv
  | rdo | rdv | rdt =>
    obtain ⟨-, -, -, rfl⟩ := h
    exact hinv

/-- Every command keeps the invariant, however it ends; a response stands outside it. -/
theorem exec_engineInv (hinv : s.EngineInv) (h : exec i s = .next t) : t.EngineInv := by
  rcases exec_cases i s t h with ⟨-, rfl⟩ | ⟨-, c, -, rfl⟩ | ⟨-, d, u, he, rfl⟩
  · exact hinv
  · exact setFcode_engineInv hinv (codeOf_le_five c)
  · have hu : u.EngineInv := effect_engineInv hinv he
    exact hu

/-- Every command word keeps the invariant. -/
theorem transact_engineInv {w : Word} (hinv : s.EngineInv) (h : transact w s = .next t) :
    t.EngineInv := by
  rcases transact_cases w s t h with ⟨i, -, he⟩ | ⟨-, -, -, rfl⟩ | ⟨-, -, -, rfl⟩
  · exact exec_engineInv (s := s.accept) hinv he
  · exact setFcode_engineInv (s := s.accept) (c := 0x02) hinv (by decide)
  · exact hinv

/-- An accepted word has its response: both counts advance by one. -/
theorem transact_inv {w : Word} (hinv : s.Inv) (h : transact w s = .next t) : t.Inv := by
  obtain ⟨hengine, hcount⟩ := hinv
  obtain ⟨d, hd, -⟩ := transact_answeredOnce h
  refine ⟨transact_engineInv hengine h, ?_⟩
  rw [hd.responses, hd.pc, List.length_append, State.accept_responses, State.accept_pc, hcount]
  rfl

/-- Settles O12, by the three things a step can be. -/
theorem everyStepKeepsTheInvariant : Obligations.EveryStepKeepsTheInvariant := by
  intro s t hinv h
  rcases step_cases s t h with ⟨-, rfl⟩ | ⟨w, rest, -, hw⟩ | ⟨rest, -, rfl⟩
  · exact hinv
  · exact transact_inv (s := s.withPending rest) hinv hw
  · exact ⟨resetAt_engineInv (s.resets + 1), rfl⟩

/-! ## Where it holds no step stops -/

/-- Every command word is answered (70_reset R202): refused, rejected or executed. -/
theorem transact_next (hinv : s.EngineInv) (w : Word) : ∃ t, transact w s = .next t := by
  by_cases hf : s.fcode = 0
  · obtain ⟨t, ht, -⟩ := faultsAreRaisedExactlyAsListed w s hinv hf
    exact ⟨t, ht⟩
  · exact ⟨_, transact_frozen w hf⟩

/-- Settles O13, by the host's next event. -/
theorem noStepStopsWhereTheInvariantHolds : Obligations.NoStepStopsWhereTheInvariantHolds := by
  intro s hinv
  match hp : s.pending with
  | [] => exact ⟨s, by simp [step, hp]⟩
  | .reset :: rest => exact ⟨_, step_reset hp⟩
  | .command w :: rest =>
    rw [step_command hp]
    exact transact_next (s := s.withPending rest) hinv w

/-! ## The defined cells -/

/-- A buffer that holds a stored sequence can be read exactly at its positions. -/
theorem exists_readCell_iff {sp : Space} {bs : List Byte} (hmem : s.mem sp = memOf bs)
    (hlen : bs.length ≤ cellCount sp) (a : Nat) :
    (∃ b, readCell sp a s = .ok b) ↔ a < bs.length := by
  simp only [readCell_ok_iff, hmem, readMem_memOf, List.getElem?_eq_some_iff]
  constructor
  · rintro ⟨_, -, ha, -⟩
    exact ha
  · exact fun ha => ⟨_, by omega, ha, rfl⟩

/-- Settles O14, by the sequence each buffer holds under the invariant. -/
theorem definedCellsAreTheSpecifiedOnes : Obligations.DefinedCellsAreTheSpecifiedOnes := by
  intro s hinv a
  have ⟨_, holen, _, htext, hnotext, _⟩ := hinv
  obtain ⟨hibuf, hilen⟩ := ibuf_eq hinv
  obtain ⟨hobuf, hobytes⟩ := obuf_eq hinv
  refine ⟨?ibuf, ?obuf, ?text⟩
  case ibuf =>
    rw [exists_readCell_iff (sp := .ibuf) hibuf (by simp [cellCount]; omega), hilen]
  case obuf =>
    rw [exists_readCell_iff (sp := .obuf) hobuf (by simp [cellCount]; omega), hobytes]
  case text =>
    cases htv : s.tv with
    | true =>
      rw [exists_readCell_iff (sp := .text) (htext htv) (textOf_length _).le, textOf_length]
      simp
    | false =>
      rw [exists_readCell_iff (sp := .text) (bs := []) (hnotext htv) (Nat.zero_le _)]
      simp

end Sys2Proof.Machine

/-! The converse of `exec_cases`: where a command's condition holds it ends in that way. The
effect of a command depends on the nine pieces of state alone, so it can be run again. -/

namespace Sys2Proof.Machine

open Sys2Proof.Claims

variable {s t u : State} {i : Instr} {d : Byte}

/-- An indexed read takes the fault of the check that fails first. -/
theorem readOut_of_raises {valid : Bool} {bound : Nat} {k : Byte}
    {get : State → Except Fault Byte} {c : Cause}
    (h : (valid = false ∧ c = .notReady) ∨
      (valid = true ∧ bound ≤ k.toNat ∧ c = .indexRange)) :
    readOut valid bound k get s = .next (faulted (codeOf c) s) := by
  obtain ⟨hinvalid, rfl⟩ | ⟨hvalid, hpast, rfl⟩ := h
  · exact readOut_of_invalid hinvalid
  · exact readOut_of_ge hvalid hpast

/-- A command whose fault condition holds takes that fault (60_exceptions R176). -/
theorem exec_of_raises {c : Cause} (hf : s.fcode = 0) (h : Raises i s c) :
    exec i s = .next (faulted (codeOf c) s) := by
  cases i with
  | nop | clr | push | rds | rdil | rdol => exact h.elim
  | pad16 =>
    obtain ⟨hlong, rfl⟩ := h
    exact (exec_pad16 hf).trans (padTo_of_gt hlong)
  | pad32 =>
    obtain ⟨hlong, rfl⟩ := h
    exact (exec_pad32 hf).trans (padTo_of_gt hlong)
  | ldv =>
    obtain ⟨hlen, rfl⟩ := h
    exact (exec_ldv hf).trans (loadValue_of_ne _ hlen)
  | fmt =>
    obtain ⟨hvv, rfl⟩ := h
    exact exec_fmt_of_invalid hf hvv
  | rdo k => exact (exec_rdo hf k).trans (readOut_of_raises h)
  | rdv k => exact (exec_rdv hf k).trans (readOut_of_raises h)
  | rdt k => exact (exec_rdt hf k).trans (readOut_of_raises h)

/-- An input that is not too long and can be read is padded. -/
theorem padTo_of_le {n : Nat} {input : List Byte} (hlen : s.ilen.toNat ≤ n)
    (hread : readCells .ibuf s 0 s.ilen.toNat = .ok input) :
    padTo n s = .next (answered 0x00 (s.setOutput (padBytes input n) n)) := by
  rw [padTo, if_neg hlen.not_gt, hread]
  rfl

/-- A block that can be read is loaded. -/
theorem loadValue_of_eq {bs : List Byte} (o : WordOrder) (hlen : s.ilen.toNat = 16)
    (hread : readCells .ibuf s 0 8 = .ok bs) :
    loadValue o s = .next (answered 0x00 (s.setValue (word64 bs o))) := by
  rw [loadValue, if_pos hlen, hread]
  rfl

/-- A command whose effect is possible completes with it. -/
theorem exec_of_effect (hf : s.fcode = 0) (h : Effect i s d u) :
    exec i s = .next (answered d u) := by
  cases i with
  | nop =>
    obtain ⟨rfl, rfl⟩ := h
    exact exec_nop hf
  | clr =>
    obtain ⟨rfl, rfl⟩ := h
    exact exec_clr hf
  | push b =>
    obtain ⟨rfl, rfl⟩ := h
    exact exec_push hf b
  | pad16 =>
    obtain ⟨rfl, hlen, input, hread, rfl⟩ := h
    exact (exec_pad16 hf).trans (padTo_of_le hlen hread)
  | pad32 =>
    obtain ⟨rfl, hlen, input, hread, rfl⟩ := h
    exact (exec_pad32 hf).trans (padTo_of_le hlen hread)
  | ldv =>
    obtain ⟨rfl, hlen, bs, hread, rfl⟩ := h
    exact (exec_ldv hf).trans (loadValue_of_eq _ hlen hread)
  | fmt =>
    obtain ⟨rfl, hvv, rfl⟩ := h
    exact exec_fmt_of_valid hf hvv
  | rdo k =>
    obtain ⟨hvalid, hk, hread, rfl⟩ := h
    exact (exec_rdo hf k).trans (readOut_of_ok hvalid hk hread)
  | rdv k =>
    obtain ⟨hvalid, hk, rfl, rfl⟩ := h
    exact (exec_rdv hf k).trans (readOut_of_ok hvalid hk rfl)
  | rdt k =>
    obtain ⟨hvalid, hk, hread, rfl⟩ := h
    exact (exec_rdt hf k).trans (readOut_of_ok hvalid hk hread)
  | rds =>
    obtain ⟨rfl, rfl⟩ := h
    exact exec_rds hf
  | rdil =>
    obtain ⟨rfl, rfl⟩ := h
    exact exec_rdil hf
  | rdol =>
    obtain ⟨rfl, rfl⟩ := h
    exact exec_rdol hf

/-- A command that leaves the engine running has completed. -/
theorem exec_completed (h : exec i s = .next t) (ht : t.fcode = 0) :
    s.fcode = 0 ∧ ∃ d u, Effect i s d u ∧ t = answered d u := by
  rcases exec_cases i s t h with ⟨hfrozen, rfl⟩ | ⟨-, c, -, rfl⟩ | ⟨hf, d, u, he, rfl⟩
  · exact absurd ht hfrozen
  · have hcode : codeOf c ≠ 0 := by cases c <;> decide
    exact absurd ht hcode
  · exact ⟨hf, d, u, he, rfl⟩

/-! ## A command run twice in a row (spec/20_memory.md R59) -/

/-- The cells that are read are those of the buffer alone. -/
theorem readCells_congr {sp : Space} (hmem : t.mem sp = s.mem sp) (k n : Nat) :
    readCells sp t k n = readCells sp s k n := by
  induction n generalizing k with
  | zero => rfl
  | succ n ih => simp only [readCells, readCell, hmem, ih]

/-- The input can still be read after it was padded. -/
theorem readInput_setOutput {input : List Byte} {n : Nat}
    (hread : readCells .ibuf s 0 n = .ok input) (out : List Byte) (k : Nat) :
    readCells .ibuf (answered 0x00 (s.setOutput out k)) 0 n = .ok input := by
  have hmem : (answered 0x00 (s.setOutput out k)).mem .ibuf = s.mem .ibuf := rfl
  rw [readCells_congr hmem, hread]

/-- A read-out writes nothing, and its response leaves it possible as it was. -/
theorem effect_of_returnsData (hi : returnsData i) (h : Effect i s d u) :
    u = s ∧ Effect i (answered d s) d (answered d s) := by
  cases i with
  | nop | clr | push | pad16 | pad32 | ldv | fmt => exact absurd trivial hi
  | rdo k | rdv k | rdt k =>
    obtain ⟨hvalid, hk, hread, rfl⟩ := h
    exact ⟨rfl, hvalid, hk, hread, rfl⟩
  | rds | rdil | rdol =>
    obtain ⟨rfl, rfl⟩ := h
    exact ⟨rfl, rfl, rfl⟩

/-- The five commands that are idempotent write again what they have written. -/
theorem effect_repeats (hi : i = .clr ∨ i = .pad16 ∨ i = .pad32 ∨ i = .ldv ∨ i = .fmt)
    (h : Effect i s d u) : d = 0x00 ∧ Effect i (answered 0x00 u) 0x00 (answered 0x00 u) := by
  obtain rfl | rfl | rfl | rfl | rfl := hi
  · obtain ⟨rfl, rfl⟩ := h
    exact ⟨rfl, rfl, rfl⟩
  · obtain ⟨rfl, hlen, input, hread, rfl⟩ := h
    exact ⟨rfl, rfl, hlen, input, readInput_setOutput hread _ _, rfl⟩
  · obtain ⟨rfl, hlen, input, hread, rfl⟩ := h
    exact ⟨rfl, rfl, hlen, input, readInput_setOutput hread _ _, rfl⟩
  · obtain ⟨rfl, hlen, bs, hread, rfl⟩ := h
    exact ⟨rfl, rfl, hlen, bs, (readCells_congr rfl 0 _).trans hread, rfl⟩
  · obtain ⟨rfl, hvv, rfl⟩ := h
    exact ⟨rfl, rfl, hvv, rfl⟩

/-- `PUSH` counts one byte up to the value at which `ILEN` saturates (R92). -/
theorem pushInput_ilen_toNat (b : Byte) (h : s.ilen.toNat < 33) :
    (pushInput b s).ilen.toNat = s.ilen.toNat + 1 := by
  rcases Nat.lt_succ_iff_lt_or_eq.mp h with hlt | heq
  · rw [pushInput_of_lt b hlt, storeInput_ilen_toNat b hlt]
  · rw [pushInput_of_eq b heq, heq]
    rfl

/-- Settles O41, by the effect of the completed command run again. -/
theorem commandsAreIdempotentAsListed : Obligations.CommandsAreIdempotentAsListed := by
  intro i s t h ht
  obtain ⟨hf, d, u, he, rfl⟩ := exec_completed h ht
  refine ⟨fun hi => ?read, fun hi => ?idempotent, ?push⟩
  case read =>
    obtain ⟨rfl, hagain⟩ := effect_of_returnsData hi he
    exact ⟨d, rfl, exec_of_effect ht hagain⟩
  case idempotent =>
    obtain ⟨rfl, hagain⟩ := effect_repeats hi he
    exact exec_of_effect ht hagain
  case push =>
    rintro b rfl hlen
    obtain ⟨rfl, rfl⟩ := he
    exact pushInput_ilen_toNat b hlen

/-! ## The flags (spec/10_state.md R31) -/

/-- `VV`: set by `LDV`, cleared by nothing. -/
theorem effect_vv (h : Effect i s d u) : u.vv = s.vv ∨ i = .ldv ∧ u.vv = true := by
  cases i with
  | ldv =>
    obtain ⟨-, -, _, -, rfl⟩ := h
    exact .inr ⟨rfl, rfl⟩
  | _ =>
    have hwriters := (effect_onlyWritersChange h).value
    exact .inl (by simpa using fun hne => hwriters (.inr hne))

/-- `TV`: set by `FMT`, cleared by `LDV`. -/
theorem effect_tv (h : Effect i s d u) :
    u.tv = s.tv ∨ i = .ldv ∧ u.tv = false ∨ i = .fmt ∧ u.tv = true := by
  cases i with
  | ldv =>
    obtain ⟨-, -, _, -, rfl⟩ := h
    exact .inr (.inl ⟨rfl, rfl⟩)
  | fmt =>
    obtain ⟨-, -, rfl⟩ := h
    exact .inr (.inr ⟨rfl, rfl⟩)
  | _ =>
    have hwriters := (effect_onlyWritersChange h).text
    exact .inl (by simpa using fun hne => hwriters (.inr hne))

/-- `OV`: set by `PAD16` and `PAD32`, whose target lengths are not 0; cleared by nothing. -/
theorem effect_ov (h : Effect i s d u) :
    u.ov = s.ov ∨ (i = .pad16 ∨ i = .pad32) ∧ u.ov = true := by
  cases i with
  | pad16 =>
    obtain ⟨-, -, _, -, rfl⟩ := h
    exact .inr ⟨.inl rfl, rfl⟩
  | pad32 =>
    obtain ⟨-, -, _, -, rfl⟩ := h
    exact .inr ⟨.inr rfl, rfl⟩
  | _ =>
    have hwriters := (effect_onlyWritersChange h).output
    have holen : u.olen = s.olen := by simpa using fun hne => hwriters (.inr hne)
    exact .inl (congrArg (· != 0) holen)

/-- `IOVF`: set by a `PUSH` at `ILEN` 32, cleared by `CLR`. -/
theorem effect_iovf (h : Effect i s d u) :
    u.iovf = s.iovf ∨ (i = .clr ∧ u.iovf = false) ∨
      ∃ b, i = .push b ∧ s.ilen.toNat = 32 ∧ u.iovf = true := by
  cases i with
  | clr =>
    obtain ⟨-, rfl⟩ := h
    exact .inr (.inl ⟨rfl, rfl⟩)
  | push b =>
    obtain ⟨-, rfl⟩ := h
    rcases lt_trichotomy s.ilen.toNat 32 with hlt | heq | hgt
    · have hlen := pushInput_ilen_toNat b (hlt.trans (by decide))
      have hne : s.ilen.toNat ≠ 33 := by omega
      left
      rw [iovf_eq_decide, iovf_eq_decide, hlen]
      simp [hne, hlt.ne]
    · rw [pushInput_of_eq b heq]
      exact .inr (.inr ⟨b, rfl, heq, rfl⟩)
    · rw [pushInput_of_gt b hgt]
      exact .inl rfl
  | _ =>
    have hwriters := (effect_onlyWritersChange h).input
    have hilen : u.ilen = s.ilen := by simpa using fun hne => hwriters (.inr hne)
    exact .inl (congrArg (· == 33) hilen)

/-- From `s` to `t` each flag changes only as the table of R31 says. -/
structure FlagsFollow (i : Instr) (s t : State) : Prop where
  vv : t.vv = s.vv ∨ i = .ldv ∧ t.vv = true
  tv : t.tv = s.tv ∨ i = .ldv ∧ t.tv = false ∨ i = .fmt ∧ t.tv = true
  ov : t.ov = s.ov ∨ (i = .pad16 ∨ i = .pad32) ∧ t.ov = true
  iovf : t.iovf = s.iovf ∨ (i = .clr ∧ t.iovf = false) ∨
    ∃ b, i = .push b ∧ s.ilen.toNat = 32 ∧ t.iovf = true

/-- A command changes no flag unless it completes; a response is no flag. -/
theorem exec_flagsFollow (h : exec i s = .next t) : FlagsFollow i s t := by
  rcases exec_cases i s t h with ⟨-, rfl⟩ | ⟨-, c, -, rfl⟩ | ⟨-, d, u, he, rfl⟩
  · exact ⟨.inl rfl, .inl rfl, .inl rfl, .inl rfl⟩
  · exact ⟨.inl rfl, .inl rfl, .inl rfl, .inl rfl⟩
  · have hu : FlagsFollow i s u := ⟨effect_vv he, effect_tv he, effect_ov he, effect_iovf he⟩
    exact ⟨hu.vv, hu.tv, hu.ov, hu.iovf⟩

/-- Settles O40, by what each command does to each flag. -/
theorem flagsAreSetAndClearedAsTheTableSays :
    Obligations.FlagsAreSetAndClearedAsTheTableSays := by
  intro i s t h
  obtain ⟨hvv, htv, hov, hiovf⟩ := exec_flagsFollow h
  refine ⟨?_, ?_, ?_, ?_, ?_, ?_, ?_, ?_⟩
  · rcases hvv with hvv | ⟨-, hvv⟩ <;> simp [hvv]
  · rcases hvv with hvv | ⟨hi, -⟩ <;> simp_all
  · rcases htv with htv | ⟨-, htv⟩ | ⟨hi, -⟩ <;> simp_all
  · rcases htv with htv | ⟨hi, -⟩ | ⟨-, htv⟩ <;> simp_all
  · rcases hov with hov | ⟨-, hov⟩ <;> simp [hov]
  · rcases hov with hov | ⟨hi, -⟩ <;> simp_all
  · rcases hiovf with hiovf | ⟨-, hiovf⟩ | ⟨b, hi, hlen, -⟩ <;> simp_all
  · rcases hiovf with hiovf | ⟨hi, -⟩ | ⟨b, -, -, hiovf⟩ <;> simp_all

end Sys2Proof.Machine

/-! The function `pad` as a whole (spec/41_padder.md R106, R112): the closed form, and where
two inputs collide. -/

namespace Sys2Proof.Machine

variable {x y : List Byte} {t : Nat}

/-- An XOR edit at the byte after a known part. -/
theorem xorAt_append_cons (xs ys : List Byte) (b m : Byte) :
    xorAt xs.length m (xs ++ b :: ys) = xs ++ (b ^^^ m) :: ys := by
  induction xs with
  | nil => rfl
  | cons a xs ih => exact congrArg (a :: ·) ih

/-- Two or more bytes missing: the two markers stand apart, with `FILL` between them. -/
theorem padFill_of_two_missing (x : List Byte) (k : Nat) :
    padFill x (x.length + k + 2) = x ++ [0x80] ++ List.replicate k 0x00 ++ [0x01] := by
  have hfill : List.replicate (x.length + k + 2 - x.length) Config.fill =
      0x00 :: (List.replicate k 0x00 ++ [0x00]) := by
    rw [show x.length + k + 2 - x.length = k + 1 + 1 by omega, List.replicate_succ,
      List.replicate_succ']
  have hend : x.length + k + 2 - 1 = (x ++ [0x80] ++ List.replicate k 0x00).length := by
    simp; omega
  calc padFill x (x.length + k + 2)
    _ = xorAt (x.length + k + 2 - 1) 0x01
          (xorAt x.length 0x80 (x ++ 0x00 :: (List.replicate k 0x00 ++ [0x00]))) := by
      rw [padFill, hfill]
    _ = xorAt (x.length + k + 2 - 1) 0x01
          (x ++ [0x80] ++ List.replicate k 0x00 ++ [0x00]) := by
      rw [xorAt_append_cons]
      simp
    _ = x ++ [0x80] ++ List.replicate k 0x00 ++ [0x01] := by
      rw [hend, xorAt_append_cons]
      rfl

theorem padBytes_of_length_eq (h : x.length = t) : padBytes x t = x :=
  if_pos h

theorem padBytes_of_length_lt (h : x.length < t) : padBytes x t = padFill x t :=
  if_neg h.ne

/-- Settles O23, by the number of bytes missing. -/
theorem padHasTheClosedForm : Obligations.PadHasTheClosedForm := by
  intro x t h0
  split_ifs with htwo hone heq
  · obtain ⟨k, rfl⟩ : ∃ k, t = x.length + k + 2 := ⟨t - x.length - 2, by omega⟩
    rw [pad_of_le h0 (by omega), padBytes_of_length_lt (by omega), padFill_of_two_missing,
      show x.length + k + 2 - x.length - 2 = k by omega]
  · rw [pad_of_le h0 (by omega), padBytes_of_one_missing hone]
  · rw [pad_of_le h0 heq.le, padBytes_of_length_eq heq]
  · exact pad_of_gt h0 (by omega)

/-! ## The collisions of `pad` -/

/-- Past the input only the start marker has bit 7, whether or not the end marker meets it. -/
theorem paddingByte_msb (n t j : Nat) : (paddingByte n t j).msb = decide (j = n) := by
  rw [paddingByte, BitVec.msb_xor, BitVec.msb_xor]
  split_ifs with hmark <;> simp [hmark] <;> decide

/-- The start marker of the longer of two padded inputs stands where the other has none. -/
theorem padFill_ne_of_length_lt (hxy : x.length < y.length) (hy : y.length < t) :
    padFill x t ≠ padFill y t := by
  intro heq
  have hbyte := congrArg (·[y.length]?) heq
  simp only [getElem?_padFill_of_le hxy.le hy, getElem?_padFill_of_le le_rfl hy,
    Option.some.injEq] at hbyte
  have hmsb := congrArg BitVec.msb hbyte
  simp [paddingByte_msb, hxy.ne'] at hmsb

/-- Filling is injective: the start marker shows where the input ends. -/
theorem eq_of_padFill_eq (hx : x.length < t) (hy : y.length < t)
    (h : padFill x t = padFill y t) : x = y := by
  have hlen : x.length = y.length := by
    rcases lt_trichotomy x.length y.length with hlt | heq | hgt
    · exact absurd h (padFill_ne_of_length_lt hlt hy)
    · exact heq
    · exact absurd h.symm (padFill_ne_of_length_lt hgt hx)
  apply List.ext_getElem?
  intro j
  by_cases hj : j < x.length
  · rw [← getElem?_padFill_of_lt hx hj, h, getElem?_padFill_of_lt hy (hlen ▸ hj)]
  · rw [List.getElem?_eq_none (not_lt.mp hj), List.getElem?_eq_none (hlen ▸ not_lt.mp hj)]

/-- A padded output is as long as the target, so padding leaves it as it is. -/
theorem padBytes_padBytes (h : x.length ≤ t) : padBytes (padBytes x t) t = padBytes x t :=
  padBytes_of_length_eq (padBytes_length x t h)

/-- Settles O24, by the injectivity of filling below the target length. -/
theorem padCollidesOnlyAtTheTargetLength : Obligations.PadCollidesOnlyAtTheTargetLength := by
  intro t h0
  refine ⟨fun x hx => ?oneMissing, fun x y hx hpad => ?again, fun x y hx hy hne hpad => ?others⟩
  case oneMissing =>
    have hpadded := padBytes_of_one_missing hx
    have hagain := padBytes_padBytes (x := x) (t := t) (by omega)
    rw [hpadded] at hagain
    rw [pad_of_le h0 (by omega), pad_of_le h0 (by simp; omega), hpadded, hagain]
    exact ⟨rfl, rfl⟩
  case again =>
    rw [pad_of_le h0 hx] at hpad
    cases hpad
    rw [pad_of_le h0 (padBytes_length x t hx).le, padBytes_padBytes hx]
  case others =>
    rw [pad_of_le h0 hx, pad_of_le h0 hy] at hpad
    have hbytes : padBytes x t = padBytes y t := Except.ok.inj hpad
    rcases hx.lt_or_eq with hx | hx <;> rcases hy.lt_or_eq with hy | hy
    · rw [padBytes_of_length_lt hx, padBytes_of_length_lt hy] at hbytes
      exact absurd (eq_of_padFill_eq hx hy hbytes) hne
    · exact .inr ⟨hy, hx⟩
    · exact .inl ⟨hx, hy⟩
    · rw [padBytes_of_length_eq hx, padBytes_of_length_eq hy] at hbytes
      exact absurd hbytes hne

end Sys2Proof.Machine

/-! The constant formatter for both word orders (spec/00_scope.md R6), and the text of a value
as a code of it (spec/42_formatter.md R128). -/

namespace Sys2Proof.Machine

variable {s : State}

/-- Byte `i` of the value assembled in either order is byte `i` of the block, from the end of
`VALUE` at which the order starts (R121). -/
theorem getElem?_eq_extract_word64 (o : WordOrder) {bs : List Byte} (hlen : bs.length = 8)
    {i : Nat} (hi : i < 8) :
    bs[i]? = some ((word64 bs o).extractLsb'
      (match o with | .le => 8 * i | .be => 56 - 8 * i) 8) := by
  cases o with
  | le => rw [← getElem?_leBytes _ hi, word64, leBytes_word64LE hlen]
  | be => exact (congrArg (·[i]?) (beBytes_word64 hlen)).symm.trans (getElem?_beBytes _ hi)

/-- Settles O30, by the bytes of a value in both orders. -/
theorem ldvFollowsTheWordOrderParameter : Obligations.LdvFollowsTheWordOrderParameter := by
  refine ⟨rfl, fun o s hinv _ hlen => ⟨_, loadValue_of_inv hinv o hlen, fun i hi => ?_⟩⟩
  have hbytes : (bytesOf s.ibuf).length = 16 := by rw [(ibuf_eq hinv).2, hlen]; rfl
  rw [readMem_ibuf hinv, ← List.getElem?_take_of_lt hi]
  exact getElem?_eq_extract_word64 o (by simp [hbytes]) hi

/-- Different nibbles have different digits: the letters come after the numerals (R125). -/
theorem hexdigit_injective {a b : BitVec 4} (h : hexdigit a = hexdigit b) : a = b := by
  have hnum := congrArg BitVec.toNat h
  rw [hexdigit_toNat, hexdigit_toNat] at hnum
  apply BitVec.eq_of_toNat_eq
  split_ifs at hnum <;> omega

/-- Two values with the same sixteen nibbles are the same: bit `j` stands in nibble `j / 4`. -/
theorem eq_of_extract_nibbles {v w : BitVec 64}
    (h : ∀ k < 16, v.extractLsb' (60 - 4 * k) 4 = w.extractLsb' (60 - 4 * k) 4) : v = w := by
  apply BitVec.eq_of_getLsbD_eq
  intro j hj
  have hpos : 60 - 4 * (15 - j / 4) = 4 * (j / 4) := by omega
  have hbit := congrArg (BitVec.getLsbD · (j % 4)) (h (15 - j / 4) (by omega))
  simpa [hpos, BitVec.getLsbD_extractLsb', Nat.mod_lt, Nat.div_add_mod] using hbit

theorem textOf_injective {v w : BitVec 64} (h : textOf v = textOf w) : v = w := by
  apply eq_of_extract_nibbles
  intro k hk
  have hdigit := congrArg (·[2 + k]?) h
  simp only [getElem?_textOf_digit _ hk, Option.some.injEq] at hdigit
  exact hexdigit_injective hdigit

/-- A digit is one of `0` to `9` and `a` to `f` (R128 item 2). -/
theorem hexdigit_range (d : BitVec 4) :
    (0x30 ≤ (hexdigit d).toNat ∧ (hexdigit d).toNat ≤ 0x39) ∨
      (0x61 ≤ (hexdigit d).toNat ∧ (hexdigit d).toNat ≤ 0x66) := by
  have hd := d.isLt
  rw [hexdigit_toNat]
  split_ifs with hle
  · exact .inl ⟨by omega, by omega⟩
  · exact .inr ⟨by omega, by omega⟩

/-- The characters of a text are `0`, `x` and digits. -/
theorem mem_textOf {v : BitVec 64} {c : Byte} (h : c ∈ textOf v) :
    c = 0x30 ∨ c = 0x78 ∨ ∃ d, c = hexdigit d := by
  simp only [textOf, List.mem_cons, List.mem_flatMap, hexPair, List.not_mem_nil, or_false] at h
  obtain h | h | ⟨b, -, h | h⟩ := h
  · exact .inl h
  · exact .inr (.inl h)
  · exact .inr (.inr ⟨_, h⟩)
  · exact .inr (.inr ⟨_, h⟩)

/-- Settles O32, by the digit of each nibble. -/
theorem textDeterminesTheValue : Obligations.TextDeterminesTheValue := by
  refine ⟨fun v w h => textOf_injective h, fun v c hc => ?_⟩
  obtain rfl | rfl | ⟨d, rfl⟩ := mem_textOf hc
  · exact .inl (by decide)
  · exact .inr (.inr rfl)
  · rw [← or_assoc]
    exact .inl (hexdigit_range d)

end Sys2Proof.Machine

/-! The input abstraction (spec/40_input_stream.md R93): an engine that holds the unbounded
sequence of all pushed bytes, and what the host reads back from it (spec/43_readout.md
R146). -/

namespace Sys2Proof.Machine

open Sys2Proof.Claims

variable {s t : State} {bs : List Byte}

/-! ## The commands on a held sequence -/

/-- Only the input storage decides which sequence a state holds. -/
theorem HoldsInput.congr (h : HoldsInput s bs) (hilen : t.ilen = s.ilen)
    (hibuf : t.ibuf = s.ibuf) : HoldsInput t bs := by
  rwa [HoldsInput, hilen, hibuf]

/-- No byte is held after a reset. -/
theorem holdsInput_resetAt (n : Nat) : HoldsInput (State.resetAt n) [] :=
  ⟨rfl, rfl⟩

theorem holdsInput_clearInput (s : State) : HoldsInput s.clearInput [] :=
  ⟨rfl, rfl⟩

/-- `PUSH` appends to the held sequence: a byte past the 32nd is counted once at most and not
stored (R92). -/
theorem holdsInput_pushInput (h : HoldsInput s bs) (b : Byte) :
    HoldsInput (pushInput b s) (bs ++ [b]) := by
  have ⟨hilen, hibuf⟩ := h
  have hlen : (bs ++ [b]).length = bs.length + 1 := by simp
  rcases lt_or_ge bs.length 32 with hlt | hge
  · have hcount : s.ilen.toNat = bs.length := by omega
    rw [pushInput_of_lt b (by omega)]
    constructor
    · rw [storeInput_ilen_toNat b (by omega)]
      omega
    · rw [State.storeInput_ibuf, hibuf, hcount, List.take_of_length_le (by omega),
        writeMem_memOf_end, List.take_of_length_le (by omega)]
  · have hstored : s.ibuf = memOf ((bs ++ [b]).take 32) := by
      rw [hibuf, List.take_append_of_le_length hge]
    rcases hge.eq_or_lt with heq | hgt
    · rw [pushInput_of_eq b (by omega)]
      exact ⟨by simp; omega, hstored⟩
    · rw [pushInput_of_gt b (by omega)]
      exact ⟨by omega, hstored⟩

/-- Every command but `CLR` and `PUSH` leaves the held sequence as it is (R60). -/
theorem holdsInput_of_exec {i : Instr} (h : HoldsInput s bs) (he : exec i s = .next t)
    (hclr : i ≠ .clr) (hpush : ∀ b, i ≠ .push b) : HoldsInput t bs := by
  have hwriters := (exec_onlyWritersChange he).input
  have hother : ¬ (i = .clr ∨ ∃ b, i = .push b) := by simp [hclr, hpush]
  have hsame := mt hwriters hother
  rw [not_or, not_ne_iff, not_ne_iff] at hsame
  exact h.congr hsame.2 hsame.1

/-- The stored bytes of the held sequence can be read. -/
theorem HoldsInput.readCells (h : HoldsInput s bs) {n : Nat} (hn : n ≤ bs.length)
    (h32 : n ≤ 32) : readCells .ibuf s 0 n = .ok (bs.take n) := by
  obtain ⟨-, hibuf⟩ := h
  have hread := readCells_memOf .ibuf s (bs.take 32) 0 n hibuf (by simp; omega)
    (by simpa [cellCount] using h32)
  rwa [List.drop_zero, List.take_take, min_eq_left h32] at hread

/-- `PAD16` and `PAD32` pad the whole held sequence, or fail where `pad` does. -/
theorem HoldsInput.padTo (h : HoldsInput s bs) {n : Nat} (h0 : 0 < n) (h32 : n ≤ 32) :
    match pad bs n with
    | .ok out => padTo n s = .next (answered 0x00 (s.setOutput out n))
    | .error _ => padTo n s = .next (faulted 0x01 s) := by
  have ⟨hilen, _⟩ := h
  rcases le_or_gt bs.length n with hle | hgt
  · have hcount : s.ilen.toNat = bs.length := by omega
    have hread := h.readCells le_rfl (hle.trans h32)
    rw [List.take_length, ← hcount] at hread
    rw [pad_of_le h0 hle]
    exact padTo_of_le (by omega) hread
  · rw [pad_of_gt h0 hgt]
    exact padTo_of_gt (by omega)

/-- `LDV` loads the first 8 bytes of a held block. -/
theorem HoldsInput.loadValue (h : HoldsInput s bs) (hlen : bs.length = 16) (o : WordOrder) :
    loadValue o s = .next (answered 0x00 (s.setValue (word64 (bs.take 8) o))) := by
  have ⟨hilen, _⟩ := h
  exact loadValue_of_eq o (by omega) (h.readCells (by omega) (by decide))

/-- `LDV` on a held sequence that is no cipher block. -/
theorem HoldsInput.loadValue_of_ne (h : HoldsInput s bs) (hlen : bs.length ≠ 16)
    (o : WordOrder) : Machine.loadValue o s = .next (faulted 0x03 s) := by
  have ⟨hilen, _⟩ := h
  exact Machine.loadValue_of_ne o (by omega)

/-- Settles O42, by what each command does on a held sequence. -/
theorem engineActsOnTheWholePushedSequence :
    Obligations.EngineActsOnTheWholePushedSequence := by
  refine ⟨holdsInput_resetAt, fun s bs h hf => ⟨fun b => ?push, ?clr, fun i t he => ?other,
    ?pad16, ?pad32, ?ldv, ?rdil⟩⟩
  case push => exact ⟨_, exec_push hf b, holdsInput_pushInput h b⟩
  case clr => exact ⟨_, exec_clr hf, holdsInput_clearInput s⟩
  case other => exact holdsInput_of_exec h he
  case pad16 =>
    rw [exec_pad16 hf]
    exact h.padTo (by decide) (by decide)
  case pad32 =>
    rw [exec_pad32 hf]
    exact h.padTo (by decide) (by decide)
  case ldv =>
    rw [exec_ldv hf]
    split_ifs with hlen
    · exact h.loadValue hlen .le
    · exact h.loadValue_of_ne hlen .le
  case rdil =>
    obtain ⟨hilen, -⟩ := h
    rw [exec_rdil hf, ← hilen, BitVec.ofNat_toNat]
    rfl

/-! ## What the host reads back -/

/-- `RDO` on an output that is a stored sequence of `OLEN` bytes. -/
theorem exec_rdo_of_output (hf : s.fcode = 0) {out : List Byte} (hobuf : s.obuf = memOf out)
    (holen : s.olen.toNat = out.length) (hcap : out.length ≤ 32) {i : Byte}
    (hi : i.toNat < out.length) : exec (.rdo i) s = .next (answered out[i.toNat] s) := by
  have hcell : readCell .obuf i.toNat s = .ok out[i.toNat] := by
    rw [readCell_ok_iff]
    refine ⟨hi.trans_le hcap, ?_⟩
    rw [State.mem, hobuf, readMem_memOf, List.getElem?_eq_getElem]
  have hov : s.ov = true := by
    rw [ov_eq_decide, holen]
    exact decide_eq_true (by omega)
  exact exec_of_effect hf ⟨hov, by omega, hcell, rfl⟩

/-- The state after a padding command for target length 16 or 32. -/
theorem HoldsInput.exists_padded (h : HoldsInput s bs) (hf : s.fcode = 0) {n : Nat}
    (hn : n = 16 ∨ n = 32) (hlen : bs.length ≤ n) :
    ∃ t, Machine.padTo n s = .next t ∧ t.fcode = 0 ∧ t.obuf = memOf (padBytes bs n) ∧
      t.olen.toNat = n := by
  have hrun := h.padTo (n := n) (by omega) (by omega)
  rw [pad_of_le (by omega) hlen] at hrun
  exact ⟨_, hrun, hf, rfl, Nat.mod_eq_of_lt (by omega)⟩

/-- The padded output read back after a padding command. -/
theorem HoldsInput.padded_readBack (h : HoldsInput s bs) (hf : s.fcode = 0) {n : Nat}
    (hn : n = 16 ∨ n = 32) (hlen : bs.length ≤ n) :
    ∃ t out, Machine.padTo n s = .next t ∧ pad bs n = .ok out ∧ out.length = n ∧
      ∀ i : Byte, i.toNat < n →
        ∃ b, out[i.toNat]? = some b ∧ exec (.rdo i) t = .next (answered b t) := by
  obtain ⟨t, hrun, htf, hobuf, holen⟩ := h.exists_padded hf hn hlen
  have hpadded := padBytes_length bs n hlen
  refine ⟨t, _, hrun, pad_of_le (by omega) hlen, hpadded, fun i hi => ?_⟩
  have hout : i.toNat < (padBytes bs n).length := by omega
  exact ⟨_, List.getElem?_eq_getElem hout,
    exec_rdo_of_output htf hobuf (by omega) (by omega) hout⟩

/-- Settles O43, by the output each padding command writes. -/
theorem hostObtainsThePaddedInput : Obligations.HostObtainsThePaddedInput := by
  intro s bs h hf
  rw [exec_pad16 hf, exec_pad32 hf]
  exact ⟨h.padded_readBack hf (.inl rfl), h.padded_readBack hf (.inr rfl)⟩

/-- `RDV` on a valid value. -/
theorem exec_rdv_of_valid (hf : s.fcode = 0) (hvv : s.vv = true) {i : Byte} (hi : i.toNat < 8) :
    exec (.rdv i) s = .next (answered (beByte s.value i.toNat) s) :=
  exec_of_effect hf ⟨hvv, hi, rfl, rfl⟩

/-- `RDT` on a valid text that is the text of a value. -/
theorem exec_rdt_of_text (hf : s.fcode = 0) (htv : s.tv = true) {v : BitVec 64}
    (htext : s.text = memOf (textOf v)) {i : Byte} (hi : i.toNat < 18) {c : Byte}
    (hc : (textOf v)[i.toNat]? = some c) : exec (.rdt i) s = .next (answered c s) := by
  have hcell : readMem s.text i.toNat = some c := by rw [htext, readMem_memOf, hc]
  exact exec_of_effect hf ⟨htv, hi, readCell_text hi hcell, rfl⟩

/-- In order `LE` the bytes of the value, most significant first, are the block's reversed. -/
theorem getElem?_block_eq_beByte (hlen : 8 ≤ bs.length) {i : Nat} (hi : i < 8) :
    bs[7 - i]? = some (beByte (word64 (bs.take 8) .le) i) := by
  rw [← List.getElem?_take_of_lt (show 7 - i < 8 by omega),
    getElem?_eq_extract_word64 .le (by simp [hlen]) (show 7 - i < 8 by omega), beByte,
    show 8 * (7 - i) = 56 - 8 * i by omega]

/-- The state after `LDV` on a held block. -/
theorem HoldsInput.exists_loaded (h : HoldsInput s bs) (hf : s.fcode = 0)
    (hlen : bs.length = 16) :
    ∃ t, exec .ldv s = .next t ∧ t.fcode = 0 ∧ t.vv = true ∧
      t.value = word64 (bs.take 8) .le :=
  ⟨_, (exec_ldv hf).trans (h.loadValue hlen .le), hf, rfl, rfl⟩

/-- The state after `FMT` on a valid value. -/
theorem exists_formatted (hf : s.fcode = 0) (hvv : s.vv = true) :
    ∃ u, exec .fmt s = .next u ∧ u.fcode = 0 ∧ u.vv = true ∧ u.tv = true ∧
      u.value = s.value ∧ u.text = memOf (textOf s.value) :=
  ⟨_, exec_fmt_of_valid hf hvv, hf, hvv, rfl, rfl, rfl⟩

/-- Settles O44, by the value that `LDV` loads and the text that `FMT` writes. -/
theorem hostObtainsTheValueAndItsText : Obligations.HostObtainsTheValueAndItsText := by
  intro s blk h hf hlen
  obtain ⟨t, hldv, htf, htvv, htvalue⟩ := h.exists_loaded hf hlen
  obtain ⟨u, hfmt, huf, hvv, htv, hvalue, htext⟩ := exists_formatted htf htvv
  rw [htvalue] at hvalue htext
  refine ⟨t, u, hldv, hfmt, fun i hi => ?value, fun i hi => ?text⟩
  case value =>
    rw [getElem?_block_eq_beByte (by omega) hi, ← hvalue]
    exact ⟨_, rfl, exec_rdv_of_valid huf hvv hi⟩
  case text =>
    have hc := List.getElem?_eq_getElem
      (show i.toNat < (textOf (word64 (blk.take 8) .le)).length by rwa [textOf_length])
    exact ⟨_, hc, exec_rdt_of_text huf htv htext hi hc⟩

end Sys2Proof.Machine

/-! An unspecified `VALUE` is never observed (spec/70_reset_and_hazards.md R190,
spec/93_implementation_defined.md U3): two states that agree on everything defined go through
every command side by side. -/

namespace Sys2Proof.Machine

variable {s t u : State} {i : Instr} {d : Byte}

theorem sameDefined_refl (s : State) : sameDefined s s :=
  ⟨fun _ => rfl, rfl⟩

/-- While `VV` is 0 `VALUE` may be anything. -/
theorem sameDefined_of_vv_false (hvv : s.vv = false) (v : BitVec 64) :
    sameDefined s { s with value := v } :=
  ⟨by simp [hvv], rfl⟩

/-- Two such states are the same, or `VV` is 0 and only `VALUE` differs. -/
theorem sameDefined_cases (h : sameDefined s t) :
    t = s ∨ s.vv = false ∧ ∃ v, t = { s with value := v } := by
  obtain ⟨hvalue, hrest⟩ := h
  by_cases hvv : s.vv = true
  · rw [hvalue hvv] at hrest
    exact .inl hrest
  · exact .inr ⟨eq_false_of_ne_true hvv, _, hrest⟩

theorem sameDefined_answer (h : sameDefined s t) (r : Word) :
    sameDefined (s.answer r) (t.answer r) :=
  ⟨h.1, congrArg (State.answer r) h.2⟩

theorem sameDefined_setFcode (h : sameDefined s t) (c : Byte) :
    sameDefined (s.setFcode c) (t.setFcode c) :=
  ⟨h.1, congrArg (State.setFcode c) h.2⟩

theorem sameDefined_accept (h : sameDefined s t) : sameDefined s.accept t.accept :=
  ⟨h.1, congrArg State.accept h.2⟩

theorem sameDefined_fcode (h : sameDefined s t) : t.fcode = s.fcode :=
  (congrArg State.fcode h.2 :)

theorem sameDefined_responses (h : sameDefined s t) : t.responses = s.responses :=
  (congrArg State.responses h.2 :)

/-- No fault depends on `VALUE`. -/
theorem raises_of_sameDefined {c : Cause} (h : sameDefined s t) (hr : Raises i s c) :
    Raises i t c := by
  rw [h.2]
  cases i <;> exact hr

/-- `PUSH` does not touch `VALUE`. -/
theorem pushInput_withValue (b : Byte) (s : State) (v : BitVec 64) :
    pushInput b { s with value := v } = { pushInput b s with value := v } := by
  unfold pushInput
  split_ifs <;> rfl

/-- A command that completes in the one state completes with the same byte in the other: `FMT`
and `RDV`, which read `VALUE`, complete only while `VV` is 1. -/
theorem effect_of_sameDefined (h : sameDefined s t) (he : Effect i s d u) :
    ∃ u', Effect i t d u' ∧ sameDefined u u' := by
  obtain rfl | ⟨hvv, v, rfl⟩ := sameDefined_cases h
  · exact ⟨u, he, sameDefined_refl u⟩
  cases i with
  | nop | rds | rdil | rdol =>
    obtain ⟨rfl, rfl⟩ := he
    exact ⟨_, ⟨rfl, rfl⟩, sameDefined_of_vv_false hvv v⟩
  | clr =>
    obtain ⟨rfl, rfl⟩ := he
    exact ⟨_, ⟨rfl, rfl⟩, sameDefined_of_vv_false (s := s.clearInput) hvv v⟩
  | push b =>
    obtain ⟨rfl, rfl⟩ := he
    obtain ⟨-, -, -, hkept, -⟩ := pushInput_frame b s
    exact ⟨_, ⟨rfl, (pushInput_withValue b s v).symm⟩,
      sameDefined_of_vv_false (hkept.trans hvv) v⟩
  | pad16 | pad32 =>
    obtain ⟨rfl, hlen, input, hread, rfl⟩ := he
    have hmem : ({ s with value := v } : State).mem .ibuf = s.mem .ibuf := rfl
    have hread' : readCells .ibuf { s with value := v } 0 s.ilen.toNat = .ok input := by
      rw [readCells_congr hmem, hread]
    exact ⟨_, ⟨rfl, hlen, input, hread', rfl⟩,
      sameDefined_of_vv_false (s := s.setOutput _ _) hvv v⟩
  | ldv =>
    obtain ⟨rfl, hlen, bs, hread, rfl⟩ := he
    exact ⟨_, ⟨rfl, hlen, bs, hread, rfl⟩, sameDefined_refl _⟩
  | fmt =>
    obtain ⟨-, hvalid, -⟩ := he
    exact absurd hvalid (by simp [hvv])
  | rdv k =>
    obtain ⟨hvalid, -⟩ := he
    exact absurd hvalid (by simp [hvv])
  | rdo k | rdt k =>
    obtain ⟨hvalid, hk, hread, rfl⟩ := he
    exact ⟨_, ⟨hvalid, hk, hread, rfl⟩, sameDefined_of_vv_false hvv v⟩

/-- A command goes the same way in both states. -/
theorem exec_of_sameDefined {s' : State} (h : sameDefined s t) (he : exec i s = .next s') :
    ∃ t', exec i t = .next t' ∧ sameDefined s' t' := by
  have hft : t.fcode = s.fcode := sameDefined_fcode h
  rcases exec_cases i s s' he with ⟨hf, rfl⟩ | ⟨hf, c, hc, rfl⟩ | ⟨hf, d, u, hu, rfl⟩
  · rw [← hft]
    exact ⟨_, exec_frozen i t (hft ▸ hf), sameDefined_answer h _⟩
  · exact ⟨_, exec_of_raises (hft.trans hf) (raises_of_sameDefined h hc),
      sameDefined_answer (sameDefined_setFcode h _) _⟩
  · obtain ⟨u', hu', hsame⟩ := effect_of_sameDefined h hu
    exact ⟨_, exec_of_effect (hft.trans hf) hu', sameDefined_answer hsame _⟩

/-- Settles O45, by the ways a transaction can end. -/
theorem undefinedValueIsNeverObserved : Obligations.UndefinedValueIsNeverObserved := by
  intro w s t hsame s' h
  have hft : t.fcode = s.fcode := sameDefined_fcode hsame
  suffices hrun : ∃ t', transact w t = .next t' ∧ sameDefined s' t' by
    obtain ⟨t', ht', hsame'⟩ := hrun
    exact ⟨t', ht', sameDefined_responses hsame', hsame'⟩
  rcases transact_cases w s s' h with ⟨i, hd, he⟩ | ⟨e, hd, hf, rfl⟩ | ⟨e, -, hf, rfl⟩
  · rw [transact_of_decode_ok hd]
    exact exec_of_sameDefined (sameDefined_accept hsame) he
  · exact ⟨_, transact_illegal (hft.trans hf) hd,
      sameDefined_answer (sameDefined_setFcode (sameDefined_accept hsame) _) _⟩
  · rw [← hft]
    exact ⟨_, transact_frozen w (hft ▸ hf), sameDefined_answer (sameDefined_accept hsame) _⟩

end Sys2Proof.Machine

/-! The clock-edge machine (spec/10_state.md R37, spec/70_reset_and_hazards.md R191 to R202):
the handshake, the host's duty, reset, the latency of a command, and that the engine moves by
whole transactions. -/

namespace Sys2Proof.Machine

open Sys2Proof.Claims

variable {p q : PortState} {inp : PortIn}

/-! ## The handshake in terms of the phase -/

theorem cmdReady_iff (p : PortState) : (portOut p).cmdReady = true ↔ p.phase = .idle := by
  unfold portOut
  split <;> simp_all

theorem rspValid_iff (p : PortState) : (portOut p).rspValid = true ↔ p.phase = .answering := by
  unfold portOut
  split <;> simp_all

theorem accepts_iff :
    accepts inp p = true ↔ inp.cmdValid = true ∧ p.phase = .idle ∧ inp.rst = false := by
  simp [accepts, cmdReady_iff, and_assoc]

theorem delivers_iff :
    delivers inp p = true ↔ p.phase = .answering ∧ inp.rspReady = true := by
  simp [delivers, rspValid_iff]

theorem cmdReady_eq_false (h : p.phase ≠ .idle) : (portOut p).cmdReady = false :=
  eq_false_of_ne_true fun hready => h ((cmdReady_iff p).mp hready)

/-- An edge that leaves an answering engine as it is leaves the outputs as they are. -/
theorem portOut_congr (hengine : q.engine = p.engine) (hphase : q.phase = p.phase) :
    portOut q = portOut p := by
  simp only [portOut, hengine, hphase]

/-! ## The engine's part of an edge, by phase -/

section NoReset
variable (hrst : inp.rst = false)
include hrst

theorem engineEdge_held (hp : p.phase = .held) : engineEdge inp p = .next (p.engine, .idle) := by
  simp [engineEdge, hrst, hp]

theorem engineEdge_idle (hp : p.phase = .idle) (hv : inp.cmdValid = false) :
    engineEdge inp p = .next (p.engine, .idle) := by
  simp [engineEdge, hrst, hp, hv]

theorem engineEdge_busy {w : Word} {n : Nat} (hp : p.phase = .busy w n) :
    engineEdge inp p = workEdge w n p.engine := by
  simp [engineEdge, hrst, hp]

theorem engineEdge_answering (hp : p.phase = .answering) :
    engineEdge inp p = .next (p.engine, if inp.rspReady then .idle else .answering) := by
  cases hr : inp.rspReady <;> simp [engineEdge, hrst, hp, hr]

end NoReset

theorem engineEdge_reset (hrst : inp.rst = true) :
    engineEdge inp p = .next (resetEvent p.engine, .held) := by
  simp [engineEdge, hrst]

theorem engineEdge_accept (h : accepts inp p = true) :
    engineEdge inp p = .next (p.engine, .busy inp.cmdData (latencyOf inp p)) := by
  obtain ⟨hv, hp, hrst⟩ := accepts_iff.mp h
  simp [engineEdge, hrst, hp, hv]

theorem workEdge_waiting {w : Word} {n : Nat} (h : 1 < n) (s : State) :
    workEdge w n s = .next (s, .busy w (n - 1)) := by
  rw [workEdge, if_neg (by omega)]

theorem workEdge_last {w : Word} {s t : State} (h : transact w s = .next t) :
    workEdge w 1 s = .next (t, .answering) := by
  simp [workEdge, h]

/-- Under the engine's invariant its part of an edge never stops. -/
theorem engineEdge_next (hinv : p.engine.EngineInv) (inp : PortIn) :
    ∃ s ph, engineEdge inp p = .next (s, ph) := by
  cases hrst : inp.rst with
  | true => exact ⟨_, _, engineEdge_reset hrst⟩
  | false =>
    match hp : p.phase with
    | .held => exact ⟨_, _, engineEdge_held hrst hp⟩
    | .idle =>
      cases hv : inp.cmdValid with
      | true => exact ⟨_, _, engineEdge_accept (accepts_iff.mpr ⟨hv, hp, hrst⟩)⟩
      | false => exact ⟨_, _, engineEdge_idle hrst hp hv⟩
    | .busy w n =>
      rw [engineEdge_busy hrst hp]
      obtain ⟨t, ht⟩ := transact_next hinv w
      by_cases hn : n ≤ 1
      · exact ⟨t, .answering, by simp [workEdge, hn, ht]⟩
      · exact ⟨_, _, workEdge_waiting (not_le.mp hn) _⟩
    | .answering => exact ⟨_, _, engineEdge_answering hrst hp⟩

/-! ## One command at a time -/

theorem latencyOf_pos (inp : PortIn) (p : PortState) : 1 ≤ latencyOf inp p :=
  Nat.succ_pos _

/-- An edge without reset that takes the response makes the engine ready; one that does not
leaves everything the host sees as it is. -/
theorem clockEdge_answering (hrst : inp.rst = false) (hp : p.phase = .answering)
    (h : clockEdge inp p = .next q) :
    q.engine = p.engine ∧ q.phase = if inp.rspReady then .idle else .answering := by
  obtain ⟨-, s, ph, he, rfl⟩ := clockEdge_next h
  rw [engineEdge_answering hrst hp] at he
  cases he
  exact ⟨rfl, rfl⟩

/-- Without reset the engine is ready after an edge only if it was idle and accepted nothing,
was held, or had its response taken. -/
theorem clockEdge_idle_cases (h : clockEdge inp p = .next q) (hrst : inp.rst = false)
    (hq : q.phase = .idle) :
    p.phase = .held ∨ (p.phase = .idle ∧ inp.cmdValid = false) ∨ delivers inp p = true := by
  obtain ⟨-, s, ph, he, rfl⟩ := clockEdge_next h
  rw [PortState.after_phase] at hq
  subst hq
  rcases engineEdge_cases he with ⟨hr, -⟩ | ⟨-, hp, -⟩ | ⟨-, -, -, -, hph⟩ |
    ⟨-, hp, hv, -⟩ | ⟨-, w, n, -, ⟨-, -, hph⟩ | ⟨-, -, hph⟩⟩ | ⟨-, hp, -, hph⟩
  · simp [hrst] at hr
  · exact .inl hp
  · cases hph
  · exact .inr (.inl ⟨hp, hv⟩)
  · cases hph
  · cases hph
  · refine .inr (.inr (delivers_iff.mpr ⟨hp, ?_⟩))
    by_contra hr
    simp [hr] at hph

/-- A command inside after an edge was inside before, further from its response, or was
accepted on that edge. -/
theorem clockEdge_busy_cases {w : Word} {n : Nat} (h : clockEdge inp p = .next q)
    (hq : q.phase = .busy w n) :
    (∃ m, p.phase = .busy w m ∧ n < m) ∨ accepts inp p = true ∧ w = inp.cmdData := by
  obtain ⟨-, s, ph, he, rfl⟩ := clockEdge_next h
  rw [PortState.after_phase] at hq
  subst hq
  rcases engineEdge_cases he with ⟨-, -, hph⟩ | ⟨-, -, -, hph⟩ | ⟨hr, hp, hv, -, hph⟩ |
    ⟨-, -, -, -, hph⟩ | ⟨-, w', m, hp, ⟨-, -, hph⟩ | ⟨hm, -, hph⟩⟩ | ⟨-, -, -, hph⟩
  · cases hph
  · cases hph
  · cases hph
    exact .inr ⟨accepts_iff.mpr ⟨hv, hp, hr⟩, rfl⟩
  · cases hph
  · cases hph
  · cases hph
    exact .inl ⟨m, hp, by omega⟩
  · split at hph <;> cases hph

/-- Settles O46, by the phase before the edge. -/
theorem portsHoldOneCommandAtATime : Obligations.PortsHoldOneCommandAtATime := by
  refine ⟨fun inp p hs ha => ?enter, fun inp p hs hrst => ⟨fun hp => ?held, fun hp ha => ?idle⟩,
    fun inp p q w n h hq => clockEdge_busy_cases h hq,
    fun inp p q hrst h => ⟨fun ha => ?accepting, fun hd => ?delivering,
      fun hready hheld hd => ?notReady, fun hvalid hd => ?waiting⟩⟩
  case enter =>
    exact ⟨_, _, clockEdge_of_engineEdge hs (engineEdge_accept ha), rfl, latencyOf_pos inp p, rfl⟩
  case held =>
    exact ⟨_, clockEdge_of_engineEdge hs (engineEdge_held hrst hp), rfl, rfl, rfl⟩
  case idle =>
    have hv : inp.cmdValid = false := by
      simpa [accepts, (cmdReady_iff p).mpr hp, hrst] using ha
    exact ⟨_, clockEdge_of_engineEdge hs (engineEdge_idle hrst hp hv), rfl, rfl⟩
  case accepting =>
    obtain ⟨hv, hp, -⟩ := accepts_iff.mp ha
    apply cmdReady_eq_false
    intro hq
    rcases clockEdge_idle_cases h hrst hq with hp' | ⟨-, hv'⟩ | hd
    · simp [hp] at hp'
    · simp [hv] at hv'
    · simp [delivers_iff, hp] at hd
  case delivering =>
    obtain ⟨hp, hr⟩ := delivers_iff.mp hd
    obtain ⟨hengine, hphase⟩ := clockEdge_answering hrst hp h
    rw [if_pos hr] at hphase
    exact ⟨hengine, hphase, (cmdReady_iff q).mpr hphase⟩
  case notReady =>
    apply cmdReady_eq_false
    intro hq
    rcases clockEdge_idle_cases h hrst hq with hp | ⟨hp, -⟩ | hd'
    · exact hheld hp
    · simp [(cmdReady_iff p).mpr hp] at hready
    · simp [hd'] at hd
  case waiting =>
    have hp := (rspValid_iff p).mp hvalid
    obtain ⟨hengine, hphase⟩ := clockEdge_answering hrst hp h
    have hr : ¬ inp.rspReady = true := by simpa [delivers, hvalid] using hd
    rw [if_neg hr, ← hp] at hphase
    exact ⟨hengine, hphase, portOut_congr hengine hphase⟩

/-! ## The host's duty -/

/-- A word presented and not accepted is the one the host may still present. -/
theorem stillOffered_eq_some (hv : inp.cmdValid = true) (ha : accepts inp p = false) :
    stillOffered inp p = some inp.cmdData := by
  simp [stillOffered, hv, ha]

/-- With nothing presented, or with its word accepted, the host may present anything. -/
theorem stillOffered_eq_none (h : inp.cmdValid = false ∨ accepts inp p = true) :
    stillOffered inp p = none := by
  obtain h | h := h <;> simp [stillOffered, h]

/-- A host that presents nothing or the same word again keeps its duty. -/
theorem steady_after {next : PortIn} (s : State) (ph : Phase)
    (h : inp.cmdValid = true → next.cmdValid = true → next.cmdData = inp.cmdData) :
    steady next (p.after inp s ph) = true := by
  rw [steady, PortState.after_offered]
  by_cases hfree : inp.cmdValid = false ∨ accepts inp p = true
  · rw [stillOffered_eq_none hfree]
  · obtain ⟨hv, ha⟩ : inp.cmdValid = true ∧ accepts inp p = false := by simpa using hfree
    rw [stillOffered_eq_some hv ha]
    cases hn : next.cmdValid with
    | false => rfl
    | true => simp [h hv hn]

/-- Whatever was presented, once nothing is outstanding any host keeps its duty. -/
theorem steady_after_of_free (s : State) (ph : Phase)
    (h : inp.cmdValid = false ∨ accepts inp p = true) (next : PortIn) :
    steady next (p.after inp s ph) = true := by
  rw [steady, PortState.after_offered, stillOffered_eq_none h]

/-- A steady host has a move wherever the engine meets its invariant. -/
theorem clockEdge_exists (hinv : p.engine.EngineInv) (hs : steady inp p = true) :
    ∃ q, clockEdge inp p = .next q := by
  obtain ⟨s, ph, he⟩ := engineEdge_next hinv inp
  exact ⟨_, clockEdge_of_engineEdge hs he⟩

/-- Settles O53, by what is still offered after an edge. -/
theorem onlyASteadyHostHasAMove : Obligations.OnlyASteadyHostHasAMove := by
  refine ⟨fun inp p q h hv ha next hn hne => ?changed, fun inp p q h hinv hfree next => ?free,
    fun inp p q h hinv next hkeep => ?kept⟩
  case changed =>
    obtain ⟨-, s, ph, -, rfl⟩ := clockEdge_next h
    have hunsteady : steady next (p.after inp s ph) = false := by
      simp [steady, stillOffered_eq_some hv ha, hn, hne]
    simp [clockEdge, hunsteady]
  case free =>
    obtain ⟨-, s, ph, -, rfl⟩ := clockEdge_next h
    exact clockEdge_exists hinv (steady_after_of_free s ph hfree next)
  case kept =>
    obtain ⟨-, s, ph, -, rfl⟩ := clockEdge_next h
    refine clockEdge_exists hinv (steady_after s ph fun _ hn => ?_)
    obtain hnone | hsame := hkeep
    · simp [hn] at hnone
    · exact hsame

/-! ## Reset -/

theorem isResetState_resetEvent (s : State) : isResetState (resetEvent s) :=
  isResetState_resetAt (s.resets + 1)

/-- A frozen engine's fault code outlives every transaction (60_exceptions R177). -/
theorem transact_frozen_fcode {w : Word} {s t : State} (hf : s.fcode ≠ 0)
    (h : transact w s = .next t) : t.fcode = s.fcode := by
  rw [transact_frozen w hf] at h
  cases h
  rfl

/-- Settles O47, by what an edge or a step can be. -/
theorem resetEdgeHasPriority : Obligations.ResetEdgeHasPriority := by
  refine ⟨fun inp p hrst => ⟨?noAccept, fun hs => ?resetEdge⟩, fun s rest hp => ?resetStep,
    fun inp p q hrst hf h => ?frozenEdge, fun s t hf h hne => ?frozenStep⟩
  case noAccept => simp [accepts, hrst]
  case resetEdge =>
    exact ⟨_, clockEdge_of_engineEdge hs (engineEdge_reset hrst), isResetState_resetEvent _,
      Nat.zero_le _, by simp, rfl, rfl⟩
  case resetStep => exact ⟨_, step_reset hp, isResetState_resetEvent _, rfl⟩
  case frozenEdge =>
    obtain ⟨-, s, ph, he, rfl⟩ := clockEdge_next h
    rcases engineEdge_cases he with ⟨hr, -⟩ | ⟨-, -, rfl, -⟩ | ⟨-, -, -, rfl, -⟩ |
      ⟨-, -, -, rfl, -⟩ | ⟨-, w, n, -, ⟨-, ht, -⟩ | ⟨-, rfl, -⟩⟩ | ⟨-, -, rfl, -⟩
    · simp [hrst] at hr
    · rfl
    · rfl
    · rfl
    · exact transact_frozen_fcode hf ht
    · rfl
    · rfl
  case frozenStep =>
    rcases step_cases s t h with ⟨-, rfl⟩ | ⟨w, rest, -, ht⟩ | ⟨rest, hp, -⟩
    · exact absurd rfl hne
    · exact absurd (transact_frozen_fcode (s := s.withPending rest) hf ht) hne
    · exact ⟨rest, hp⟩

/-! ## The latency of a command -/

/-- The edges of a command inside the engine, without reset and with a steady host: as many as
are left, and the last one does the command's work. -/
theorem clockEdges_busy {w : Word} {t : State} (later : List PortIn) (a : PortIn)
    (hp : p.phase = .busy w (later.length + 1)) (hs : steady a p = true)
    (hrst : ∀ x ∈ a :: later, x.rst = false) (hkeep : keepsWord (a :: later))
    (ht : transact w p.engine = .next t) :
    ∃ q, clockEdges (a :: later) p = .next q ∧ q.engine = t ∧ q.phase = .answering := by
  induction later generalizing a p with
  | nil =>
    have he : engineEdge a p = .next (t, .answering) :=
      (engineEdge_busy (hrst a (by simp)) hp).trans (workEdge_last ht)
    exact ⟨_, by rw [clockEdges, clockEdge_of_engineEdge hs he]; rfl, rfl, rfl⟩
  | cons b rest ih =>
    obtain ⟨hword, hkeep⟩ := hkeep
    have he : engineEdge a p = .next (p.engine, .busy w (rest.length + 1)) :=
      (engineEdge_busy (hrst a (by simp)) hp).trans (workEdge_waiting (by simp) _)
    rw [clockEdges, clockEdge_of_engineEdge hs he]
    exact ih b rfl (steady_after _ _ hword) (fun x hx => hrst x (List.mem_cons_of_mem a hx))
      hkeep ht

/-- A transaction leaves a response to present. -/
theorem transact_response_isSome {w : Word} {s t : State} (h : transact w s = .next t) :
    t.responses.getLast?.isSome = true := by
  obtain ⟨d, hd, -⟩ := transact_answeredOnce h
  simp [hd.responses]

/-- Settles O48, by the edges the command is inside. -/
theorem acceptedCommandIsAnsweredWithinItsLatency :
    Obligations.AcceptedCommandIsAnsweredWithinItsLatency := by
  intro p inp later hinv ha hs hrst hkeep hlen
  obtain ⟨t, ht⟩ := transact_next hinv inp.cmdData
  have hpos := latencyOf_pos inp p
  match later with
  | [] => simp [← hlen] at hpos
  | a :: rest =>
    have hfree := steady_after_of_free p.engine (.busy inp.cmdData (latencyOf inp p))
      (.inr ha) a
    obtain ⟨q, hq, hengine, hphase⟩ := clockEdges_busy rest a
      (congrArg (Phase.busy inp.cmdData) hlen.symm) hfree hrst hkeep ht
    refine ⟨t, q, ht, ?_, hengine, ?_, transact_response_isSome ht⟩
    · rw [clockEdges, clockEdge_of_engineEdge hs (engineEdge_accept ha)]
      exact hq
    · simp only [portOut, hphase, hengine]

/-! ## The refinement -/

/-- Settles O49: only the last edge of a command and a reset edge touch the engine's state. -/
theorem clockEdgesRefineTransactions : Obligations.ClockEdgesRefineTransactions := by
  intro inp p q h
  obtain ⟨-, s, ph, he, rfl⟩ := clockEdge_next h
  rcases engineEdge_cases he with ⟨hr, rfl, -⟩ | ⟨-, -, rfl, -⟩ | ⟨-, -, -, rfl, -⟩ |
    ⟨-, -, -, rfl, -⟩ | ⟨-, w, n, hp, ⟨-, ht, rfl⟩ | ⟨-, rfl, -⟩⟩ | ⟨-, -, rfl, -⟩
  · exact .inr (.inr ⟨hr, step_reset rfl⟩)
  · exact .inl rfl
  · exact .inl rfl
  · exact .inl rfl
  · exact .inr (.inl ⟨w, n, hp, rfl, (step_command rfl).trans ht⟩)
  · exact .inl rfl
  · exact .inl rfl

end Sys2Proof.Machine

/-! The assembler notation (spec/30_encoding.md R80, R81): the line of a command is read back
as that command, and the pseudo-instructions expand as their table says. -/

namespace Sys2Proof.Machine

/-! ## The words of a line -/

/-- Characters without a blank extend the word that is being read. -/
theorem wordsFrom_append {m : List Char} (hm : ∀ c ∈ m, isBlank c = false)
    (rest acc : List Char) : wordsFrom (m ++ rest) acc = wordsFrom rest (m.reverse ++ acc) := by
  induction m generalizing acc with
  | nil => rfl
  | cons c m ih =>
    obtain ⟨hc, hm⟩ := List.forall_mem_cons.mp hm
    simp [wordsFrom, hc, ih hm]

theorem wordsFrom_nil {acc : List Char} (h : acc ≠ []) : wordsFrom [] acc = [acc.reverse] := by
  cases acc with
  | nil => exact absurd rfl h
  | cons c acc => rfl

/-- Two words with one blank between them. -/
theorem lineWords_two {m w : List Char} (hm : ∀ c ∈ m, isBlank c = false) (hm0 : m ≠ [])
    (hw : ∀ c ∈ w, isBlank c = false) (hw0 : w ≠ []) : lineWords (m ++ ' ' :: w) = [m, w] := by
  have hblank : isBlank ' ' = true := rfl
  have htail : wordsFrom w [] = [w] := by
    rw [← List.append_nil w, wordsFrom_append hw, wordsFrom_nil (by simp [hw0])]
    simp
  rw [lineWords, wordsFrom_append hm, wordsFrom]
  simp [hblank, hm0, htail]

/-- A line that holds no comment and is no `PUSHS` line is read as its words. -/
theorem assembleLine_of_words {line : List Char} (hpushs : afterPushs line = none)
    (hcomment : ∀ c ∈ line, c ≠ ';') : assembleLine line = assembleWords (lineWords line) := by
  have hall : uncomment line = line := List.takeWhile_eq_self_iff.mpr (by simpa using hcomment)
  rw [assembleLine, hpushs, hall]

/-! ## The operand of a listing -/

/-- A hexadecimal digit, read back. -/
theorem digitValue_digitChar : ∀ d : BitVec 4, digitValue 16 (digitChar d) = some d.toNat := by
  decide

/-- A hexadecimal digit ends neither the word nor the line. -/
theorem digitChar_inside : ∀ d : BitVec 4,
    isBlank (digitChar d) = false ∧ digitChar d ≠ ';' := by
  decide

theorem nibbles_toNat (b : Byte) :
    (b.extractLsb' 4 4).toNat * 16 + (b.extractLsb' 0 4).toNat = b.toNat := by
  have := b.isLt
  simp only [BitVec.extractLsb'_toNat, Nat.shiftRight_eq_div_pow]
  omega

/-- Two hexadecimal digits after `0x`, read back. -/
theorem operandOf_byteChars (b : Byte) : operandOf ('0' :: 'x' :: byteChars b) = some b := by
  have hnum : numberOf ('0' :: 'x' :: byteChars b) = some b.toNat := by
    rw [byteChars, numberOf, digitsFrom, digitValue_digitChar]
    simp only [digitsFrom, digitValue_digitChar, Nat.zero_mul, Nat.zero_add, nibbles_toNat]
    simp
  have hle : b.toNat ≤ 255 := Nat.le_of_lt_succ b.isLt
  simp [operandOf, hnum, hle]

theorem operandChars_inside (b : Byte) :
    ∀ c ∈ '0' :: 'x' :: byteChars b, isBlank c = false ∧ c ≠ ';' := by
  simp [byteChars, digitChar_inside, show isBlank '0' = false from rfl,
    show isBlank 'x' = false from rfl]

theorem mnemonicOf_ne_nil (i : Instr) : mnemonicOf i ≠ [] := by
  cases i <;> exact List.cons_ne_nil _ _

/-- No character of a mnemonic ends the word or the line. -/
theorem mnemonicOf_inside (i : Instr) :
    ∀ c ∈ mnemonicOf i, isBlank c = false ∧ c ≠ ';' := by
  cases i <;> simp [mnemonicOf, isBlank]

/-- The line of a command with an operand. -/
theorem assembleLine_operand {b : Byte} {i : Instr}
    (hpushs : afterPushs (mnemonicOf i ++ ' ' :: '0' :: 'x' :: byteChars b) = none)
    (hi : commandOf (mnemonicOf i) [b] = some i) :
    assembleLine (mnemonicOf i ++ ' ' :: '0' :: 'x' :: byteChars b) = some [i] := by
  have hm := mnemonicOf_inside i
  have hw := operandChars_inside b
  have hwords : lineWords (mnemonicOf i ++ ' ' :: '0' :: 'x' :: byteChars b) =
      [mnemonicOf i, '0' :: 'x' :: byteChars b] :=
    lineWords_two (fun c hc => (hm c hc).1) (mnemonicOf_ne_nil i) (fun c hc => (hw c hc).1)
      (by simp)
  have hcomment : ∀ c ∈ mnemonicOf i ++ ' ' :: '0' :: 'x' :: byteChars b, c ≠ ';' := by
    intro c hc
    rcases List.mem_append.mp hc with hc | hc
    · exact (hm c hc).2
    · rcases List.mem_cons.mp hc with rfl | hc
      · decide
      · exact (hw c hc).2
  rw [assembleLine_of_words hpushs hcomment, hwords]
  simp [assembleWords, operandsOf, operandOf_byteChars, hi]

/-- Settles O50, by the two words of a line with an operand; the lines without one are nine
fixed texts. -/
theorem sourceLineAssemblesToItsCommand : Obligations.SourceLineAssemblesToItsCommand := by
  intro i
  cases i with
  | push b => exact assembleLine_operand (i := .push b) rfl rfl
  | rdo k => exact assembleLine_operand (i := .rdo k) rfl rfl
  | rdv k => exact assembleLine_operand (i := .rdv k) rfl rfl
  | rdt k => exact assembleLine_operand (i := .rdt k) rfl rfl
  | nop | clr | pad16 | pad32 | ldv | fmt | rds | rdil | rdol => decide

/-! ## The pseudo-instructions -/

theorem asciiByte_of_printable {c : Char} (h : 0x20 ≤ c.toNat ∧ c.toNat ≤ 0x7E) :
    asciiByte c = some (BitVec.ofNat 8 c.toNat) :=
  if_pos h

theorem asciiByte_of_not_printable {c : Char} (h : c.toNat < 0x20 ∨ 0x7E < c.toNat) :
    asciiByte c = none :=
  if_neg (by omega)

/-- A text of printable characters, character by character (R81). -/
theorem asciiBytes_of_printable {cs : List Char}
    (h : ∀ c ∈ cs, 0x20 ≤ c.toNat ∧ c.toNat ≤ 0x7E) :
    asciiBytes cs = some (cs.map fun c => BitVec.ofNat 8 c.toNat) := by
  induction cs with
  | nil => rfl
  | cons c cs ih =>
    obtain ⟨hc, hcs⟩ := List.forall_mem_cons.mp h
    simp [asciiBytes, asciiByte_of_printable hc, ih hcs]

/-- One other character makes the text none that `PUSHS` takes. -/
theorem asciiBytes_of_not_printable {cs : List Char}
    (h : ∃ c ∈ cs, c.toNat < 0x20 ∨ 0x7E < c.toNat) : asciiBytes cs = none := by
  induction cs with
  | nil => simp at h
  | cons c cs ih =>
    rw [List.exists_mem_cons_iff] at h
    rcases h with hc | hcs
    · simp [asciiBytes, asciiByte_of_not_printable hc]
    · cases hb : asciiByte c <;> simp [asciiBytes, hb, ih hcs]

/-- The reads of cells `0 .. n-1`, in order. -/
theorem readAll_spec (cmd : Byte → Instr) (n : Nat) :
    (readAll cmd n).length = n ∧
      ∀ i, i < n → (readAll cmd n)[i]? = some (cmd (BitVec.ofNat 8 i)) := by
  refine ⟨by simp [readAll], fun i hi => ?_⟩
  rw [readAll, List.getElem?_map, List.getElem?_range hi, Option.map_some]

/-- Settles O51, by the expansion of each pseudo-instruction. -/
theorem pseudoInstructionsExpandAsListed : Obligations.PseudoInstructionsExpandAsListed := by
  refine ⟨fun bs => rfl, fun cs h => ?printable, fun cs h => ?other, fun n hn => ?rdoall,
    fun n h16 h32 => ?otherLength, ⟨_, rfl, readAll_spec .rdv 8⟩, ⟨_, rfl, readAll_spec .rdt 18⟩⟩
  case printable => simp [expand, asciiBytes_of_printable h]
  case other => simp [expand, asciiBytes_of_not_printable h]
  case rdoall => exact ⟨_, if_pos hn, readAll_spec .rdo n⟩
  case otherLength => exact if_neg (by simp [h16, h32])

end Sys2Proof.Machine

/-! The derive sequence (spec/44_derive_sequence.md R160 to R164): the function `derive`, and
the host's command sequence for it run on the engine. -/

namespace Sys2Proof.Machine

open Sys2Proof.Claims

/-! ## The function `derive` -/

section Derive
variable {Text : Type} {encodeText : Text → Option (List Byte)} {cipher : Cipher}
  {o : WordOrder} {key label : Text} {k l : List Byte}

theorem derive_of_not_encoded (h : encodeText key = none ∨ encodeText label = none) :
    derive encodeText cipher o key label = .error .invalidEncoding := by
  obtain h | h := h
  · simp [derive, h]
  · cases hk : encodeText key <;> simp [derive, hk, h]

/-- The two padded blocks, or the one failure of padding (R163 steps 1 and 2). -/
theorem paddedPair_eq (k l : List Byte) :
    paddedPair k l = if 32 < k.length ∨ 16 < l.length then .error .inputTooLong
      else .ok (padBytes k 32, padBytes l 16) := by
  rcases lt_or_ge 32 k.length with hk | hk
  · rw [if_pos (.inl hk), paddedPair, pad_of_gt (by decide) hk]
  rcases lt_or_ge 16 l.length with hl | hl
  · rw [if_pos (.inr hl), paddedPair, pad_of_le (by decide) hk, pad_of_gt (by decide) hl]
  · rw [if_neg (by omega), paddedPair, pad_of_le (by decide) hk, pad_of_le (by decide) hl]

/-- `derive` on two strings that have an encoding (R164). -/
theorem derive_of_encoded (hk : encodeText key = some k) (hl : encodeText label = some l) :
    derive encodeText cipher o key label =
      if 32 < k.length ∨ 16 < l.length then .error .inputTooLong
      else .ok (constantOf o (cipher.encrypt (padBytes k 32) (padBytes l 16))) := by
  rw [derive, hk, hl]
  simp only [paddedPair_eq]
  split_ifs <;> rfl

/-- The cipher is run on a key of 32 and a block of 16 bytes, and gives a block (R162). -/
theorem encrypt_padded_length (cipher : Cipher) (hk : k.length ≤ 32) (hl : l.length ≤ 16) :
    (cipher.encrypt (padBytes k 32) (padBytes l 16)).length = 16 :=
  cipher.encrypt_length _ _ (padBytes_length k 32 hk) (padBytes_length l 16 hl)

end Derive

/-- Settles O52, by the encodings of the two strings and their lengths. -/
theorem deriveFailsExactlyAsTheSourceSays : Obligations.DeriveFailsExactlyAsTheSourceSays := by
  refine fun enc cipher o key label => ⟨derive_of_not_encoded, fun k l hk hl => ?_⟩
  rw [derive_of_encoded hk hl]
  split_ifs with hlong
  · rfl
  · obtain ⟨hklen, hllen⟩ : k.length ≤ 32 ∧ l.length ≤ 16 := by simpa using hlong
    exact ⟨_, _, _, pad_of_le (by decide) hklen, pad_of_le (by decide) hllen,
      padBytes_length k 32 hklen, padBytes_length l 16 hllen, rfl,
      encrypt_padded_length cipher hklen hllen, rfl⟩

/-! ## Sending commands that complete -/

variable {s t u : State} {a b cmds : List Instr} {i : Instr} {bs : List Byte}

/-- A command that leaves the engine running gives the host its byte. -/
theorem sendOne_of_exec (h : exec i s.accept = .next t) (ht : t.fcode = 0) :
    ∃ d, sendOne i s = .ok (d, t) := by
  obtain ⟨-, d, u, -, rfl⟩ := exec_completed h ht
  exact ⟨d, (sendOne_answer (decode_encode i) h).trans (if_pos rfl)⟩

/-- A read-out gives the host the byte it answers. -/
theorem sendOne_read {d : Byte} (h : exec i s.accept = .next (answered d s.accept)) :
    sendOne i s = .ok (d, answered d s.accept) :=
  (sendOne_answer (decode_encode i) h).trans (if_pos rfl)

/-- A command that faults stops the host (R164). -/
theorem sendOne_faulted {c : Byte} (h : exec i s.accept = .next (faulted c s.accept))
    (hc : c ≠ 0x00) : sendOne i s = .error (.response c (faulted c s.accept)) := by
  have hanswer : faulted c s.accept = (s.accept.setFcode c).answer (responseWord c 0x00) := rfl
  rw [hanswer] at h ⊢
  exact (sendOne_answer (decode_encode i) h).trans (if_neg hc)

/-- The host sends all these commands, no response stops it, and the engine is left at `t`. -/
def Sends (cmds : List Instr) (s t : State) : Prop := ∃ ds, sendAll cmds s = .ok (ds, t)

theorem Sends.nil (s : State) : Sends [] s s :=
  ⟨[], rfl⟩

theorem Sends.append (ha : Sends a s t) (hb : Sends b t u) : Sends (a ++ b) s u := by
  obtain ⟨ds, ha⟩ := ha
  obtain ⟨es, hb⟩ := hb
  exact ⟨ds ++ es, by rw [sendAll_append, ha]; simp only [hb]⟩

theorem Sends.one (h : exec i s.accept = .next t) (ht : t.fcode = 0) : Sends [i] s t := by
  obtain ⟨d, hsend⟩ := sendOne_of_exec h ht
  exact ⟨[d], by simp only [sendAll, hsend]⟩

/-- A read-out after commands that complete. -/
theorem Sends.thenRead (h : Sends cmds s t) (reads : List Instr) :
    sendThenRead cmds reads s = sendAll reads t := by
  obtain ⟨ds, h⟩ := h
  simp only [sendThenRead, h]

/-- A command that stops the host after commands that complete: nothing is read. -/
theorem Sends.thenStop (h : Sends cmds s t) {e : HostStop} (he : sendOne i t = .error e)
    (reads : List Instr) : sendThenRead (cmds ++ [i]) reads s = .error e := by
  obtain ⟨ds, h⟩ := h
  simp only [sendThenRead, sendAll_append, h, sendAll, he]

/-! ## The parts of the sequence -/

/-- `PUSHB` appends its bytes to the held sequence. -/
theorem sends_pushes (bs : List Byte) {held : List Byte} (h : HoldsInput s held)
    (hf : s.fcode = 0) :
    ∃ t, Sends (bs.map .push) s t ∧ HoldsInput t (held ++ bs) ∧ t.fcode = 0 := by
  induction bs generalizing s held with
  | nil => exact ⟨s, .nil s, by simpa using h, hf⟩
  | cons b bs ih =>
    have hrun : exec (.push b) s.accept = .next (answered 0x00 (pushInput b s.accept)) :=
      exec_push (s := s.accept) hf b
    have hfcode : (pushInput b s.accept).fcode = 0 :=
      (effect_fcode (i := .push b) (d := 0x00) ⟨rfl, rfl⟩).trans hf
    have hheld : HoldsInput (answered 0x00 (pushInput b s.accept)) (held ++ [b]) :=
      holdsInput_pushInput (s := s.accept) h b
    obtain ⟨t, hsends, ht, htf⟩ := ih hheld hfcode
    exact ⟨t, (Sends.one hrun hfcode).append hsends, by simpa using ht, htf⟩

/-- `CLR` and `PUSHB`: from any running engine to one that holds just these bytes. -/
theorem sends_newInput (hf : s.fcode = 0) (bs : List Byte) :
    ∃ t, Sends (.clr :: bs.map .push) s t ∧ HoldsInput t bs ∧ t.fcode = 0 := by
  have hrun : exec .clr s.accept = .next (answered 0x00 s.accept.clearInput) :=
    exec_clr (s := s.accept) hf
  have hheld : HoldsInput (answered 0x00 s.accept.clearInput) [] := holdsInput_clearInput s.accept
  obtain ⟨t, hsends, ht, htf⟩ := sends_pushes bs hheld hf
  exact ⟨t, (Sends.one hrun hf).append hsends, ht, htf⟩

/-- A read-out of cells `0 .. n-1` that leaves what it reads alone: the bytes in index order.
`P` is what the reads rest on and what the accepted and answered word leaves. -/
theorem sendAll_readAll_of_exec {cmd : Byte → Instr} {out : List Byte} {P : State → Prop}
    (hlen : out.length ≤ 256)
    (hkeep : ∀ s d, P s → P s.accept ∧ P (answered d s.accept))
    (hread : ∀ s, P s → ∀ k : Byte, ∀ h : k.toNat < out.length,
      exec (cmd k) s = .next (answered out[k.toNat] s))
    (h : P s) : ∃ t, sendAll (readAll cmd out.length) s = .ok (out, t) ∧ P t := by
  have hall : (List.range out.length).map (out.getD · 0x00) = out := by
    apply List.ext_getElem (by simp)
    intro j hj hj'
    simp [hj']
  have step : ∀ s, P s → ∀ j < out.length,
      ∃ t, sendOne (cmd (BitVec.ofNat 8 j)) s = .ok (out.getD j 0x00, t) ∧ P t := by
    intro s hs j hj
    have hidx : (BitVec.ofNat 8 j).toNat = j := Nat.mod_eq_of_lt (by omega)
    have hrun := hread s.accept (hkeep s 0x00 hs).1 (BitVec.ofNat 8 j) (by omega)
    simp only [hidx] at hrun
    refine ⟨_, ?_, (hkeep s out[j] hs).2⟩
    rw [sendOne_read hrun, List.getD_eq_getElem _ _ hj]
  have hsend := sendAll_readAll cmd out.length _ P step s h
  rwa [hall] at hsend

/-- A running engine with a valid output of these bytes. -/
def HasOutput (out : List Byte) (s : State) : Prop :=
  s.fcode = 0 ∧ s.obuf = memOf out ∧ s.olen.toNat = out.length

/-- `RDOALL` reads the whole output (R146). -/
theorem sendAll_rdoall {out : List Byte} (h : HasOutput out s) (hcap : out.length ≤ 32) :
    ∃ t, sendAll (readAll .rdo out.length) s = .ok (out, t) ∧ t.fcode = 0 := by
  obtain ⟨t, hsend, htf, -⟩ := sendAll_readAll_of_exec (cmd := .rdo) (P := HasOutput out)
    (by omega) (fun _ _ hs => ⟨hs, hs⟩)
    (fun s ⟨hf, hobuf, holen⟩ k hk => exec_rdo_of_output hf hobuf holen hcap hk) h
  exact ⟨t, hsend, htf⟩

/-- A running engine with this value loaded and formatted. -/
def HasText (v : BitVec 64) (s : State) : Prop :=
  s.fcode = 0 ∧ s.vv = true ∧ s.tv = true ∧ s.value = v ∧ s.text = memOf (textOf v)

/-- `RDVALL` reads the bytes of the value, most significant first. -/
theorem sendAll_rdvall {v : BitVec 64} (h : HasText v s) :
    ∃ t, sendAll (readAll .rdv 8) s = .ok (beBytes v, t) ∧ HasText v t := by
  have hread : ∀ s, HasText v s → ∀ k : Byte, ∀ h : k.toNat < (beBytes v).length,
      exec (.rdv k) s = .next (answered (beBytes v)[k.toNat] s) := by
    rintro s ⟨hf, hvv, -, rfl, -⟩ k hk
    have hk8 : k.toNat < 8 := by rwa [beBytes_length] at hk
    have hbyte := getElem?_beBytes s.value hk8
    rw [List.getElem?_eq_getElem hk, Option.some.injEq] at hbyte
    rw [exec_rdv_of_valid hf hvv hk8, hbyte]
  have hlen := beBytes_length v
  have hsend := sendAll_readAll_of_exec (by omega) (fun _ _ hs => ⟨hs, hs⟩) hread h
  rwa [hlen] at hsend

/-- `RDTALL` reads the text. -/
theorem sendAll_rdtall {v : BitVec 64} (h : HasText v s) :
    ∃ t, sendAll (readAll .rdt 18) s = .ok (textOf v, t) ∧ HasText v t := by
  have hread : ∀ s, HasText v s → ∀ k : Byte, ∀ h : k.toNat < (textOf v).length,
      exec (.rdt k) s = .next (answered (textOf v)[k.toNat] s) := by
    rintro s ⟨hf, -, htv, -, htext⟩ k hk
    exact exec_rdt_of_text hf htv htext (by rwa [textOf_length] at hk)
      (List.getElem?_eq_getElem hk)
  have hlen := textOf_length v
  have hsend := sendAll_readAll_of_exec (by omega) (fun _ _ hs => ⟨hs, hs⟩) hread h
  rwa [hlen] at hsend

/-! ## The sequence -/

section Pad
variable {n : Nat} (hpad : ∀ s : State, s.fcode = 0 → exec i s = padTo n s)
  (hsends : Sends cmds s t) (h : HoldsInput t bs) (hf : t.fcode = 0)
include hpad hsends h hf

/-- A padding command and `RDOALL` after the input was pushed: the host has `pad` of it. -/
theorem pad_then_rdoall (hn : n = 16 ∨ n = 32) (hlen : bs.length ≤ n) :
    ∃ u, sendThenRead (cmds ++ [i]) (readAll .rdo n) s = .ok (padBytes bs n, u) ∧
      u.fcode = 0 := by
  have hpadded := padBytes_length bs n hlen
  obtain ⟨v, hrun, hvf, hobuf, holen⟩ :=
    HoldsInput.exists_padded (s := t.accept) h hf hn hlen
  have hsent : Sends (cmds ++ [i]) s v :=
    hsends.append (.one ((hpad t.accept hf).trans hrun) hvf)
  have hread := sendAll_rdoall (s := v) (out := padBytes bs n)
    ⟨hvf, hobuf, holen.trans hpadded.symm⟩ (by omega)
  rw [hpadded] at hread
  rwa [hsent.thenRead]

/-- A padding command on an input that is too long stops the host (R164). -/
theorem pad_stops (hn : n ≤ 32) (hlen : n < bs.length) (reads : List Instr) :
    ∃ u, sendThenRead (cmds ++ [i]) reads s = .error (.response 0x01 u) ∧ u.fcode = 0x01 := by
  have ⟨hilen, _⟩ := h
  have hrun : exec i t.accept = .next (faulted 0x01 t.accept) :=
    (hpad t.accept hf).trans (padTo_of_gt (show n < t.ilen.toNat by omega))
  exact ⟨_, hsends.thenStop (sendOne_faulted hrun (by decide)) reads, rfl⟩

end Pad

/-- `CLR`, `PUSHB`, `LDV` and `FMT` on a cipher block. -/
theorem sends_blockCommands (hf : s.fcode = 0) (hlen : bs.length = 16) :
    ∃ u, Sends (blockCommands bs) s u ∧ HasText (word64 (bs.take 8) .le) u := by
  obtain ⟨t, hsends, h, htf⟩ := sends_newInput hf bs
  obtain ⟨v, hldv, hvf, hvv, hvalue⟩ :=
    HoldsInput.exists_loaded (s := t.accept) h htf hlen
  obtain ⟨u, hfmt, huf, huvv, hutv, huvalue, hutext⟩ :=
    exists_formatted (s := v.accept) hvf hvv
  rw [State.accept_value, hvalue] at huvalue hutext
  exact ⟨u, hsends.append ((Sends.one hldv hvf).append (.one hfmt huf)),
    huf, huvv, hutv, huvalue, hutext⟩

/-- Step 4 (R163): from any running engine the host obtains the value and the text of a
cipher block. -/
theorem formatOnEngine_ok (hf : s.fcode = 0) (hlen : bs.length = 16) :
    ∃ u, formatOnEngine bs s = .ok (constantOf .le bs, u) ∧ u.fcode = 0 := by
  obtain ⟨t, hsends, htext⟩ := sends_blockCommands hf hlen
  obtain ⟨v, hrdv, hvtext⟩ := sendAll_rdvall htext
  obtain ⟨u, hrdt, huf, -⟩ := sendAll_rdtall hvtext
  refine ⟨u, ?_, huf⟩
  rw [formatOnEngine, hsends.thenRead, hrdv]
  simp only [textLen_eq, hrdt, word64_beBytes, constantOf]

variable {cipher : Cipher} {k l : List Byte}

/-- Where padding fails the host stops at the response of `PAD32` or of `PAD16` (R164). -/
theorem deriveBytesOnEngine_tooLong (h : HoldsInput s []) (hf : s.fcode = 0)
    (hlong : 32 < k.length ∨ 16 < l.length) :
    ∃ u, deriveBytesOnEngine cipher k l s = .error (.response 0x01 u) ∧ u.fcode = 0x01 := by
  obtain ⟨t, hkey, ht, htf⟩ := sends_pushes k h hf
  rw [List.nil_append] at ht
  rcases lt_or_ge 32 k.length with hk | hk
  · obtain ⟨u, hstop, huf⟩ := pad_stops (fun _ => exec_pad32) hkey ht htf le_rfl hk
      (readAll .rdo Config.keyLen)
    exact ⟨u, by rw [deriveBytesOnEngine, keyCommands, hstop], huf⟩
  · have hl : 16 < l.length := by omega
    obtain ⟨v, hread, hvf⟩ := pad_then_rdoall (fun _ => exec_pad32) hkey ht htf (.inr rfl) hk
    obtain ⟨w, hlabel, hw, hwf⟩ := sends_newInput hvf l
    obtain ⟨u, hstop, huf⟩ := pad_stops (fun _ => exec_pad16) hlabel hw hwf (by decide) hl
      (readAll .rdo Config.blockLen)
    refine ⟨u, ?_, huf⟩
    rw [deriveBytesOnEngine, keyCommands, keyLen_eq, hread]
    simp only [labelCommands, ← List.cons_append, hstop]

/-- Where padding succeeds the host obtains the constant of the cipher's block (R163). -/
theorem deriveBytesOnEngine_ok (h : HoldsInput s []) (hf : s.fcode = 0)
    (hk : k.length ≤ 32) (hl : l.length ≤ 16) :
    ∃ u, deriveBytesOnEngine cipher k l s =
      .ok (constantOf .le (cipher.encrypt (padBytes k 32) (padBytes l 16)), u) ∧ u.fcode = 0 := by
  obtain ⟨t, hkey, ht, htf⟩ := sends_pushes k h hf
  rw [List.nil_append] at ht
  obtain ⟨v, hreadKey, hvf⟩ := pad_then_rdoall (fun _ => exec_pad32) hkey ht htf (.inr rfl) hk
  obtain ⟨w, hlabel, hw, hwf⟩ := sends_newInput hvf l
  obtain ⟨x, hreadLabel, hxf⟩ :=
    pad_then_rdoall (fun _ => exec_pad16) hlabel hw hwf (.inl rfl) hl
  obtain ⟨u, hformat, huf⟩ := formatOnEngine_ok hxf (encrypt_padded_length cipher hk hl)
  refine ⟨u, ?_, huf⟩
  rw [deriveBytesOnEngine, keyCommands, keyLen_eq, hreadKey]
  simp only [labelCommands, ← List.cons_append, blockLen_eq, hreadLabel, hformat]

/-- Settles O54, by the encodings of the two strings and their lengths. -/
theorem deriveSequenceObtainsDerive : Obligations.DeriveSequenceObtainsDerive := by
  refine ⟨fun n => ⟨holdsInput_resetAt n, rfl⟩, fun enc cipher key label s h hf => ?_⟩
  cases hk : enc key with
  | none =>
    rw [derive_of_not_encoded (.inl hk)]
    simp only [deriveOnEngine, hk]
  | some k =>
    cases hl : enc label with
    | none =>
      rw [derive_of_not_encoded (.inr hl)]
      simp only [deriveOnEngine, hk, hl]
    | some l =>
      rw [derive_of_encoded hk hl]
      simp only [deriveOnEngine, hk, hl]
      split_ifs with hlong
      · exact deriveBytesOnEngine_tooLong h hf hlong
      · obtain ⟨hklen, hllen⟩ : k.length ≤ 32 ∧ l.length ≤ 16 := by simpa using hlong
        exact deriveBytesOnEngine_ok h hf hklen hllen

end Sys2Proof.Machine
